-- ==== Sys2Proof/Word.lean ====
section
/-! DEFINITION. The widths of `spec/00_scope.md` R5 and R7: `u8`, `u32`, `u64`, all unsigned. -/

namespace Sys2Proof

/-- `u8`: the unit of input and output (`20_memory.md` R57). -/
abbrev Byte := BitVec 8

/-- `u32`: WORD_BITS = 32, a chaining word, schedule word or round constant (R5). `+` on it is
addition modulo 2^32 (`40_compression.md` R100), which is `BitVec` addition. -/
abbrev Word := BitVec 32

/-- `u64`: COUNT_BITS = 64, the absorbed-byte counter and the length field (R5). `+` and `*` on it are
modulo 2^64 (R7). -/
abbrev Count := BitVec 64

end Sys2Proof
end

