-- ==== Sys2Proof/Machine/Bytes.lean ====
section
/-! DEFINITION. Byte order, decided once: big-endian everywhere (`spec/20_memory.md` R50 to R54,
`spec/00_scope.md` R8). -/

namespace Sys2Proof.Machine

/-- `be32(s)` for the four bytes `s[0] .. s[3]`, `s[0]` the most significant (`00_scope.md` R8). -/
def be32 (b0 b1 b2 b3 : Byte) : Word := b0 ++ b1 ++ b2 ++ b3

/-- `BE32(w) = [w[31:24], w[23:16], w[15:8], w[7:0]]` (`00_scope.md` R8). -/
def BE32 (w : Word) : List Byte :=
  [w.extractLsb' 24 8, w.extractLsb' 16 8, w.extractLsb' 8 8, w.extractLsb' 0 8]

/-- `BE64(v)`: "the same for a `u64` in 8 bytes" (`00_scope.md` R8). -/
def BE64 (v : Count) : List Byte :=
  [v.extractLsb' 56 8, v.extractLsb' 48 8, v.extractLsb' 40 8, v.extractLsb' 32 8,
   v.extractLsb' 24 8, v.extractLsb' 16 8, v.extractLsb' 8 8, v.extractLsb' 0 8]

/-- A block as big-endian words, `W[t] = be32(block[4t .. 4t+3])` (`20_memory.md` R50). A block has 64
bytes and so 16 words; a rest of fewer than four bytes, which no block has, gives no word (log 17). -/
def blockWords : List Byte → List Word
  | b0 :: b1 :: b2 :: b3 :: rest => be32 b0 b1 b2 b3 :: blockWords rest
  | _ => []

end Sys2Proof.Machine
end

