-- ==== Sys2Proof/Syntax.lean ====
section
/-! DEFINITION. The seven commands of `spec/30_encoding.md` R70, one constructor per row of
opcode_table.json. -/

namespace Sys2Proof

/-- `Command = HRESET | HABSORB(data) | HFINAL | MRESET | MKEY(key) | MABSORB(data) | MFINAL`
(`30_encoding.md` R70). The operand is a byte string; its length bound is `Instr.WellFormed`. -/
inductive Instr where
  /-- HRESET, source name `hash_reset()` (`41_hash_engine.md` R131). -/
  | hreset
  /-- HABSORB, source name `hash_absorb(bytes)` (`41_hash_engine.md` R133). -/
  | habsorb (data : List Byte)
  /-- HFINAL, source name `hash_finalize()` (`41_hash_engine.md` R135). -/
  | hfinal
  /-- MRESET, the "explicit reset" of the source's §4.3 (`42_mac_engine.md` R162). -/
  | mreset
  /-- MKEY, source name `mac_set_key(bytes)` (`42_mac_engine.md` R164). -/
  | mkey (key : List Byte)
  /-- MABSORB, source name `mac_absorb(bytes)` (`42_mac_engine.md` R166). -/
  | mabsorb (data : List Byte)
  /-- MFINAL, source name `mac_finalize()` (`42_mac_engine.md` R168). -/
  | mfinal
deriving DecidableEq, Repr

end Sys2Proof
end

