-- ==== Sys2Proof/WellFormed.lean ====
section
/-! DEFINITION. The one check on a command: its operand is shorter than 2^32 bytes
(`spec/30_encoding.md` R70, R75). -/

namespace Sys2Proof

/-- The byte-string operand of a format B command (R73); a format N command has none. -/
def Instr.operand : Instr → List Byte
  | .hreset | .hfinal | .mreset | .mfinal => []
  | .habsorb data | .mabsorb data => data
  | .mkey key => key

/-- "with `data` and `key` byte strings of length 0 to 2^32 - 1" (R70). A longer operand is not
expressible in a frame (R75, `93_implementation_defined.md` U18; log 13). -/
abbrev Instr.WellFormed (i : Instr) : Prop := i.operand.length < 2 ^ 32

end Sys2Proof
end

