-- ==== Sys2Proof/Decode.lean ====
section
/-! DEFINITION. The command decoder of `spec/30_encoding.md` R72 to R79, total on any byte string, and
its inverse, the encoder of R82. Both read the one header table of R77 below. -/

namespace Sys2Proof

open Sys2Proof.Machine (be32 BE32)

/-! ### The header table (R77) -/

/-- HRESET: `0000 0001`. -/
def hdrHRESET : Byte := 0x01
/-- HABSORB: `0000 0010`. -/
def hdrHABSORB : Byte := 0x02
/-- HFINAL: `0000 0011`. -/
def hdrHFINAL : Byte := 0x03
/-- MRESET: `0001 0001`. -/
def hdrMRESET : Byte := 0x11
/-- MABSORB: `0001 0010`. -/
def hdrMABSORB : Byte := 0x12
/-- MFINAL: `0001 0011`. -/
def hdrMFINAL : Byte := 0x13
/-- MKEY: `0001 0100`. -/
def hdrMKEY : Byte := 0x14

/-! ### The four fields of a header byte (R74) -/

/-- Z1, bits 7:5, "must be 000". -/
def hdrZ1 (h : Byte) : BitVec 3 := h.extractLsb' 5 3
/-- ENG, bit 4: 0 = HashEngine, 1 = MacEngine. -/
def hdrENG (h : Byte) : BitVec 1 := h.extractLsb' 4 1
/-- Z0, bit 3, "must be 0". -/
def hdrZ0 (h : Byte) : BitVec 1 := h.extractLsb' 3 1
/-- OP, bits 2:0: 001 RESET, 010 ABSORB, 011 FINAL, 100 KEY. -/
def hdrOP (h : Byte) : BitVec 3 := h.extractLsb' 0 3

/-! ### The decoder (R76) -/

/-- What `decode` answers (R76). -/
inductive Decoded where
  /-- No whole frame has arrived: "`Incomplete` is not an error" (R79). -/
  | incomplete
  /-- A whole frame, and the undecoded rest of the stream. -/
  | frame (i : Instr) (rest : List Byte)
  /-- A header that is none of the seven, and the stream after that one byte (R78). -/
  | illegal (header : Byte) (rest : List Byte)
deriving DecidableEq, Repr

/-- `cmd_N(h)`: the command of a format N header (R76). -/
def cmdN (h : Byte) : Option Instr :=
  if h = hdrHRESET then some .hreset
  else if h = hdrHFINAL then some .hfinal
  else if h = hdrMRESET then some .mreset
  else if h = hdrMFINAL then some .mfinal
  else none

/-- `cmd_B(h, ·)`: the command of a format B header, awaiting its operand (R76). -/
def cmdB (h : Byte) : Option (List Byte → Instr) :=
  if h = hdrHABSORB then some .habsorb
  else if h = hdrMABSORB then some .mabsorb
  else if h = hdrMKEY then some .mkey
  else none

/-- The length field and the operand of a format B frame: `LEN = be32(frame[1..4])`, unsigned and
unscaled, then the next `LEN` bytes as they stand (R73, R75, R76). -/
def decodeOperand (cmd : List Byte → Instr) : List Byte → Decoded
  | l0 :: l1 :: l2 :: l3 :: s =>
    let len := (be32 l0 l1 l2 l3).toNat
    if s.length < len then .incomplete else .frame (cmd (s.take len)) (s.drop len)
  | _ => .incomplete

/-- `decode(s)` of R76: "total on any byte string", and a function of the bytes alone. -/
def decode : List Byte → Decoded
  | [] => .incomplete
  | h :: s =>
    match cmdN h with
    | some i => .frame i s
    | none =>
      match cmdB h with
      | some cmd => decodeOperand cmd s
      | none => .illegal h s

/-! ### The encoder (R82) -/

/-- The header byte of a command (R77). -/
def Instr.header : Instr → Byte
  | .hreset => hdrHRESET
  | .habsorb _ => hdrHABSORB
  | .hfinal => hdrHFINAL
  | .mreset => hdrMRESET
  | .mkey _ => hdrMKEY
  | .mabsorb _ => hdrMABSORB
  | .mfinal => hdrMFINAL

/-- A format B frame: `[header] ‖ BE32(|d|) ‖ d` (R73, R82), for `|d| < 2^32`. DESIGN CHOICE for a longer
operand, where the spec leaves the encoding undefined: LEN is `|d| mod 2^32` and the whole operand follows
(log 18). -/
def encodeB (h : Byte) (d : List Byte) : List Byte := h :: (BE32 (BitVec.ofNat 32 d.length) ++ d)

/-- `encode` of R82, "defined for `|d|, |k| < 2^32`"; beyond that, what `encodeB` gives (DESIGN CHOICE,
log 18). -/
def encode : Instr → List Byte
  | .hreset => [hdrHRESET]
  | .habsorb data => encodeB hdrHABSORB data
  | .hfinal => [hdrHFINAL]
  | .mreset => [hdrMRESET]
  | .mkey key => encodeB hdrMKEY key
  | .mabsorb data => encodeB hdrMABSORB data
  | .mfinal => [hdrMFINAL]

/-- The "frame length" column of R77: 1, or `5 + LEN`. -/
def Instr.frameLength : Instr → Nat
  | .hreset | .hfinal | .mreset | .mfinal => 1
  | .habsorb data | .mabsorb data => 5 + data.length
  | .mkey key => 5 + key.length

/-! ### Words of the opcode table -/

/-- How long the frame that begins with these bytes is when every missing byte is 0: from the header,
then from LEN (R76); an illegal header is one byte. -/
def firstFrameLength (s : List Byte) : Nat :=
  match cmdB (s.getD 0 0) with
  | some _ => 5 + (be32 (s.getD 1 0) (s.getD 2 0) (s.getD 3 0) (s.getD 4 0)).toNat
  | none => 1

/-- The command bytes of a word of `nbits` bits numbered as opcode_table.json numbers them (bits
`8k+7 .. 8k` are byte `k` of the frame), filled up with zero bytes to the whole frame. -/
def tableBytes (nbits w : Nat) : List Byte :=
  let given := (List.range ((nbits + 7) / 8)).map fun k => BitVec.ofNat 8 (w >>> (8 * k))
  given ++ List.replicate (firstFrameLength given - given.length) 0

/-- The command this decoder reads from such a word; none where it refuses it. -/
def decodeTableWord (nbits w : Nat) : Option Instr :=
  match decode (tableBytes nbits w) with
  | .frame i _ => some i
  | .incomplete | .illegal _ _ => none

end Sys2Proof
end

