-- ==== Sys2Proof/Machine/Compression.lean ====
section
/-! DEFINITION. CompressionStep (`spec/40_compression.md` R100 to R115): a pure function of the chaining
words and one block. `+` is `BitVec 32` addition, modulo 2^32 (R100). -/

namespace Sys2Proof.Machine

/-! ### Primitives (R101 to R110) -/

/-- `rotr(x, n) = (x >> n) | ((x << (32 - n)) mod 2^32)` (R101). Used with the ten amounts of R101 only;
outside 1 to 31 the spec gives it no meaning (log 12). -/
def rotr (x : Word) (n : Nat) : Word := (x >>> n) ||| (x <<< (32 - n))

/-- `σ0(x)` (R104), of the message schedule. -/
def sigma0 (x : Word) : Word := rotr x 7 ^^^ rotr x 18 ^^^ (x >>> 3)

/-- `σ1(x)` (R105), of the message schedule. -/
def sigma1 (x : Word) : Word := rotr x 17 ^^^ rotr x 19 ^^^ (x >>> 10)

/-- `Σ0(a)` (R106), of T2. -/
def bigSigma0 (a : Word) : Word := rotr a 2 ^^^ rotr a 13 ^^^ rotr a 22

/-- `Σ1(e)` (R107), of T1. -/
def bigSigma1 (e : Word) : Word := rotr e 6 ^^^ rotr e 11 ^^^ rotr e 25

/-- `Ch(e, f, g) = (e & f) ^ (~e & g)` (R110). -/
def Ch (e f g : Word) : Word := (e &&& f) ^^^ (~~~e &&& g)

/-- `Maj(a, b, c) = (a & b) ^ (a & c) ^ (b & c)` (R110). -/
def Maj (a b c : Word) : Word := (a &&& b) ^^^ (a &&& c) ^^^ (b &&& c)

/-! ### The message schedule (R112) -/

/-- `W[t] = σ1(W[t-2]) + W[t-7] + σ0(W[t-15]) + W[t-16]` (R112), from the words so far with the latest
first, so that `W[t-k]` stands at index `k - 1`. -/
def nextWord (latestFirst : List Word) : Word :=
  sigma1 (latestFirst.getD 1 0) + latestFirst.getD 6 0 +
    sigma0 (latestFirst.getD 14 0) + latestFirst.getD 15 0

/-- `n` more schedule words in front of those so far. -/
def extendSchedule : Nat → List Word → List Word
  | 0, ws => ws
  | n + 1, ws => extendSchedule n (nextWord ws :: ws)

/-- `W[0..63]` of a block, `W[0]` first: its 16 words, then 48 more (R112). -/
def schedule (block : List Byte) : List Word :=
  (extendSchedule 48 (blockWords block).reverse).reverse

/-! ### The rounds (R111, R114, R115) -/

/-- The eight working variables of a CompressionStep (R111). -/
structure Vars where
  a : Word
  b : Word
  c : Word
  d : Word
  e : Word
  f : Word
  g : Word
  h : Word
deriving DecidableEq, Repr

/-- `(a, ..., h) <- (S[0], ..., S[7])` (R111). -/
def Vars.init (S : HWords) : Vars where
  a := S.h0
  b := S.h1
  c := S.h2
  d := S.h3
  e := S.h4
  f := S.h5
  g := S.h6
  h := S.h7

/-- `T1 = h + Σ1(e) + Ch(e, f, g) + K[t] + W[t]` (R114; the source's print lacks `h`, conflict C1, and
§8's digests win). -/
def T1 (v : Vars) (k w : Word) : Word := v.h + bigSigma1 v.e + Ch v.e v.f v.g + k + w

/-- `T2 = Σ0(a) + Maj(a, b, c)` (R114). -/
def T2 (v : Vars) : Word := bigSigma0 v.a + Maj v.a v.b v.c

/-- One round with its `(K[t], W[t])`: `(a, ..., h) <- (T1 + T2, a, b, c, d + T1, e, f, g)` (R114; the
assignment is the spec's general knowledge G3, log 7). -/
def roundStep (v : Vars) (kw : Word × Word) : Vars where
  a := T1 v kw.1 kw.2 + T2 v
  b := v.a
  c := v.b
  d := v.c
  e := v.d + T1 v kw.1 kw.2
  f := v.e
  g := v.f
  h := v.g

/-- `S'[j] = S[j] +` working variable `j` (R115). -/
def feedForward (S : HWords) (v : Vars) : HWords where
  h0 := S.h0 + v.a
  h1 := S.h1 + v.b
  h2 := S.h2 + v.c
  h3 := S.h3 + v.d
  h4 := S.h4 + v.e
  h5 := S.h5 + v.f
  h6 := S.h6 + v.g
  h7 := S.h7 + v.h

/-- `Compress(S, B)` (R113): rounds `t = 0 .. 63` in ascending order, each with `K[t]` and `W[t]`, then
the feed-forward. -/
def compress (S : HWords) (block : List Byte) : HWords :=
  feedForward S ((K.zip (schedule block)).foldl roundStep (Vars.init S))

end Sys2Proof.Machine
end

