-- ==== Sys2Proof/Config.lean ====
section
/-! DEFINITION. What one implementation fixes (`spec/00_scope.md` R6). The source's other parameters
(R5) are not configurable and stand as numbers where the rules use them. The block is deterministic
(R11), so there is no free value here. -/

namespace Sys2Proof

/-- The parameter MAC_POST_FINAL of `42_mac_engine.md` R169: the state MFINAL leaves MacEngine in. Both
values are defined by the spec and both are modelled; a machine has one of them for good (log 1). -/
inductive MacPostFinal where
  /-- MFINAL ends the key session: the key is cleared. -/
  | uninit
  /-- MFINAL re-absorbs `innerPad`: the key stays for the next message. -/
  | keyset
deriving DecidableEq, Repr

/-- The default of MAC_POST_FINAL, UNINIT (`00_scope.md` R6, decision D8; log 1). -/
def Config.macPostFinalDefault : MacPostFinal := .uninit

end Sys2Proof
end

