-- ==== Sys2Proof/Machine/State.lean ====
section
/-! DEFINITION. The state of the block (`spec/10_state.md` R20 to R35), the two byte streams of
`30_encoding.md` R71 and R80, and the outside world's moves still to come. Plain data. -/

namespace Sys2Proof.Machine

/-- A HashEngine instance, `HashState` of `10_state.md` R20. -/
structure HashState where
  /-- `H[0..7]`, the chaining words (R21). -/
  H : HWords
  /-- Bytes absorbed since the last reset, modulo 2^64 (R22; the source's `bitCount`, conflict C2). -/
  byteCount : Count
  /-- The bytes absorbed and not yet compressed, oldest first: 0 to 63 of them between commands (R23). -/
  pending : List Byte
deriving DecidableEq, Repr

/-- The reset state of a HashEngine: `(IV, 0, ε)` (R35, `41_hash_engine.md` R130). -/
def HashState.reset : HashState where
  H := IV
  byteCount := 0
  pending := []

/-- The three values `macState` has between commands (R27). `Finalized` is passed through inside MFINAL
and is no value (`42_mac_engine.md` R170). -/
inductive MacPhase where
  /-- UNINIT: no key is set. -/
  | uninit
  /-- KEYSET: a key is set, `innerPad` is absorbed, no MABSORB has succeeded since. -/
  | keyset
  /-- ABSORBING: a key is set and a MABSORB has succeeded since. -/
  | absorbing
deriving DecidableEq, Repr

/-- MacEngine, `MacState` of `10_state.md` R20. -/
structure MacState where
  /-- The HashEngine instance MacEngine composes (R25). -/
  inner : HashState
  /-- The state machine's value (R27). -/
  macState : MacPhase
  /-- The processed key, at most 64 bytes; `keyLen` is its length (R28). -/
  keyMaterial : List Byte
deriving DecidableEq, Repr

/-- The reset state of MacEngine (R35, `42_mac_engine.md` R162). -/
def MacState.reset : MacState where
  inner := .reset
  macState := .uninit
  keyMaterial := []

/-- The three errors, "all there are" (`60_exceptions.md` R194). -/
inductive Err where
  /-- MABSORB or MFINAL while no key is set (R190). -/
  | uninitializedKey
  /-- MKEY while a key is set (R191). -/
  | keyAlreadySet
  /-- A header byte that is none of the seven (R192). -/
  | illegalCommand
deriving DecidableEq, Repr

/-- A response (`30_encoding.md` R80): format S with status OK or an error's, or format D. -/
inductive Response where
  /-- Format S, STATUS 0x00. -/
  | ok
  /-- Format D: STATUS 0x00 and the digest's bytes. -/
  | digest (d : List Byte)
  /-- Format S with the error's status. -/
  | error (e : Err)
deriving DecidableEq, Repr

/-- One move of the outside world, or the engine's turn. The host's choices are the only free choice in
a run (`00_scope.md` R11); here they are data (log 3). -/
inductive Move where
  /-- The engine takes its turn: it executes what has arrived whole, or waits. -/
  | engine
  /-- The host delivers these command bytes, in order (`30_encoding.md` R71). -/
  | deliver (bytes : List Byte)
  /-- The host takes up to `n` bytes off the response stream. -/
  | read (n : Nat)
  /-- The RESET event (`70_reset_and_hazards.md` R220). -/
  | reset
deriving DecidableEq, Repr

/-- The whole machine between two commands. `HE` and `ME` are the architectural state, "and nothing
else" (R20); the other fields are what a step that takes no argument needs (logs 1, 2, 3). -/
structure State where
  /-- The engine behind HRESET, HABSORB, HFINAL. -/
  HE : HashState
  /-- The MacEngine. -/
  ME : MacState
  /-- The parameter MAC_POST_FINAL (`42_mac_engine.md` R169); no step changes it (log 1). -/
  macPostFinal : MacPostFinal
  /-- Command bytes received and not yet consumed (R33; log 2). -/
  cmd : List Byte
  /-- Response bytes sent and not yet read, oldest first (R33; log 2). -/
  resp : List Byte
  /-- The moves still to come, next first; when it is empty the engine moves (log 3). -/
  schedule : List Move
deriving DecidableEq, Repr

/-- The state after RESET (R35): every element at the spec's value, the parameter at its default
(log 1), both streams empty, and no move waiting (log 3). -/
def State.reset : State where
  HE := .reset
  ME := .reset
  macPostFinal := Config.macPostFinalDefault
  cmd := []
  resp := []
  schedule := []

/-- Reasons to stop with a fault: none. "Nothing else fails" than the three errors (`60_exceptions.md`
R194), and each of those is a next state with a response (R193; log 9). -/
inductive Fault where
deriving DecidableEq, Repr

/-- Reasons to refuse an instruction. -/
inductive Refusal where
  /-- Raised by an arm of `exec` whose instruction has no meaning yet; no arm is left that raises it.
  Safe: the machine stops where the hardware goes on. -/
  | notModelled (mnemonic : String)
deriving DecidableEq, Repr

end Sys2Proof.Machine
end

