-- ==== Sys2Proof/Machine/Operands.lean ====
section
/-! DEFINITION. The operations on a HashEngine instance (`spec/41_hash_engine.md` R130 to R138) and the
operand of the MAC commands: the pads of a key (`spec/10_state.md` R29). -/

namespace Sys2Proof.Machine

/-! ### Reset and absorb -/

/-- `Reset(E)` "puts `E` into the reset state whatever it held" (R130). -/
def resetHash (_E : HashState) : HashState := .reset

/-- One byte into the pending buffer; the block is compressed and cleared as soon as its 64th byte is in.
The part that `AbsorbByte` (R132) and the padding loop of `Finalize` (R135) share. -/
def pushByte (E : HashState) (b : Byte) : HashState :=
  let full := E.pending ++ [b]
  if full.length = 64 then { E with H := compress E.H full, pending := [] }
  else { E with pending := full }

/-- `AbsorbByte(E, b)` (R132): the byte is pushed and counted, modulo 2^64 (`10_state.md` R22). -/
def absorbByte (E : HashState) (b : Byte) : HashState :=
  let E' := pushByte E b
  { E' with byteCount := E'.byteCount + 1 }

/-- `Absorb(E, data)` (R133): byte by byte, `data[0]` first (`20_memory.md` R53). -/
def absorb (E : HashState) (data : List Byte) : HashState := data.foldl absorbByte E

/-! ### Padding and finalize -/

/-- `lengthBits = (E.byteCount * 8) mod 2^64` (R138, decision D11; log 11). -/
def lengthBits (E : HashState) : Count := E.byteCount * 8

/-- `z = (55 - p) mod 64`, with the non-negative remainder of `00_scope.md` R7 (R134). -/
def zeroCount (p : Nat) : Nat := ((55 - (p : Int)) % 64).toNat

/-- `Pad(p, L) = [0x80] ‖ 0x00^z ‖ BE64(L)` (R134). -/
def pad (p : Nat) (L : Count) : List Byte := 0x80 :: (List.replicate (zeroCount p) 0 ++ BE64 L)

/-- `Digest(H) = BE32(H[0]) ‖ ... ‖ BE32(H[7])` (R136, `20_memory.md` R52). -/
def digest (H : HWords) : List Byte := H.toList.flatMap BE32

/-- The engine after the padding loop of R135: the padding is pushed and not counted, `L` taken before. -/
def padded (E : HashState) : HashState := (pad E.pending.length (lengthBits E)).foldl pushByte E

/-- `Finalize(E)` (R135): the digest, and the engine it leaves. -/
def finalize (E : HashState) : List Byte × HashState :=
  (digest (padded E).H, resetHash (padded E))

/-! ### The pads of a key -/

/-- `keyMaterial` zero-padded to 64 bytes, then every byte XOR the constant (`10_state.md` R29). -/
def padKey (x : Byte) (km : List Byte) : List Byte := (List.range 64).map fun i => km.getD i 0 ^^^ x

/-- `innerPad(km)`, with IPAD_BYTE 0x36 (R29). -/
def innerPad (km : List Byte) : List Byte := padKey 0x36 km

/-- `outerPad(km)`, with OPAD_BYTE 0x5C (R29). -/
def outerPad (km : List Byte) : List Byte := padKey 0x5C km

end Sys2Proof.Machine
end

