-- ==== Sys2Proof/Machine/Flags.lean ====
section
/-! DEFINITION. `macState`, "the only flag-like state of the block" (`spec/10_state.md` R27), and the
status values of a response (`spec/30_encoding.md` R81). There are no condition codes and no sticky error
flag (R27, `60_exceptions.md` R195). -/

namespace Sys2Proof.Machine

/-- The status byte of an error (`30_encoding.md` R81). -/
def Err.code : Err → Byte
  | .uninitializedKey => 0x01
  | .keyAlreadySet => 0x02
  | .illegalCommand => 0x03

/-- The bytes of a response, STATUS first, then `DIGEST[0]` (`30_encoding.md` R80). -/
def Response.bytes : Response → List Byte
  | .ok => [0x00]
  | .digest d => 0x00 :: d
  | .error e => [e.code]

/-- MacEngine with the processed key `km` taken into use: `keyMaterial` stored, `innerPad` absorbed,
`macState` KEYSET. The last lines of MKEY (`42_mac_engine.md` R164) and the KEYSET branch of MFINAL
(R168). `inner` is in its reset state at both places (R30 (b), R135). -/
def startMessage (inner : HashState) (km : List Byte) : MacState where
  inner := absorb inner (innerPad km)
  macState := .keyset
  keyMaterial := km

/-- What MAC_POST_FINAL decides after the MAC is formed (`42_mac_engine.md` R168, R169). -/
def afterFinal (policy : MacPostFinal) (inner : HashState) (km : List Byte) : MacState :=
  match policy with
  | .uninit => { inner := inner, macState := .uninit, keyMaterial := [] }
  | .keyset => startMessage inner km

end Sys2Proof.Machine
end

