-- ==== Sys2Proof/Machine/Ops.lean ====
section
/-! DEFINITION. The named operations on the machine's state: writing an engine, answering a command,
raising an error, and RESET. -/

namespace Sys2Proof.Machine

/-- Replace the standalone HashEngine. -/
def State.setHE (s : State) (E : HashState) : State := { s with HE := E }

/-- Replace the MacEngine. -/
def State.setME (s : State) (M : MacState) : State := { s with ME := M }

/-- `respond`: one response at the end of the response stream (`20_memory.md` R59, `30_encoding.md` R80). -/
def State.respond (s : State) (r : Response) : State := { s with resp := s.resp ++ r.bytes }

/-- `raise <Error>` (`00_scope.md` R9), the block's exception entry (`60_exceptions.md` R193): no element
of the state changes, the response is the one status byte, and control goes nowhere. The frame has been
consumed when a command runs (R194). There is no return from it: "there is nothing to return from" (R195),
the next command is judged on the state alone. -/
def State.raise (s : State) (e : Err) : State := s.respond (.error e)

/-- Take `rest` as the unconsumed command bytes: the stream cursor moves past a frame (`30_encoding.md`
R76). -/
def State.setCmd (s : State) (rest : List Byte) : State := { s with cmd := rest }

/-- The RESET event (`70_reset_and_hazards.md` R220, R221): every element at its reset value, decoder and
response path emptied, no response. The machine's parameter and the outside world's moves to come are no
state of the block and stay (log 5). -/
def State.hardReset (s : State) : State :=
  { s with HE := .reset, ME := .reset, cmd := [], resp := [] }

end Sys2Proof.Machine
end

