-- ==== Sys2Proof/Machine/HashEngine.lean ====
section
/-! DEFINITION. The meanings of HRESET, HABSORB, HFINAL (`spec/41_hash_engine.md`). None writes `ME`, none
can fail (R141). -/

namespace Sys2Proof.Machine

/-- HRESET (R131): `Reset(HE); respond OK`. -/
def execHreset (s : State) : Host.Outcome State Fault Refusal :=
  .next ((s.setHE (resetHash s.HE)).respond .ok)

/-- HABSORB(data) (R133): `Absorb(HE, data); respond OK`. -/
def execHabsorb (data : List Byte) (s : State) : Host.Outcome State Fault Refusal :=
  .next ((s.setHE (absorb s.HE data)).respond .ok)

/-- HFINAL (R135): `d <- Finalize(HE); respond OK, d`. -/
def execHfinal (s : State) : Host.Outcome State Fault Refusal :=
  let (d, E) := finalize s.HE
  .next ((s.setHE E).respond (.digest d))

end Sys2Proof.Machine
end

