-- ==== Sys2Proof/Machine/MacEngine.lean ====
section
/-! DEFINITION. The meanings of MRESET, MKEY, MABSORB, MFINAL (`spec/42_mac_engine.md`). None touches
`HE`. -/

namespace Sys2Proof.Machine

/-- MRESET (R162): inner engine, key and `macState` to their reset values; `respond OK`. -/
def execMreset (s : State) : Host.Outcome State Fault Refusal :=
  .next ((s.setME { inner := resetHash s.ME.inner, macState := .uninit, keyMaterial := [] }).respond .ok)

/-- The key processing of MKEY on the inner engine (R163, R164): a key longer than 64 bytes is absorbed
and finalized there (decision D14), a shorter one is used as it is. Answers `km` and the inner engine. -/
def processKey (inner : HashState) (key : List Byte) : List Byte × HashState :=
  if key.length > 64 then finalize (absorb inner key) else (key, inner)

/-- MKEY(key) (R164): `KeyAlreadySet` unless UNINIT, and nothing changes; otherwise the key is processed
and taken into use. -/
def execMkey (key : List Byte) (s : State) : Host.Outcome State Fault Refusal :=
  if s.ME.macState ≠ .uninit then .next (s.raise .keyAlreadySet)
  else
    let (km, inner) := processKey s.ME.inner key
    .next ((s.setME (startMessage inner km)).respond .ok)

/-- MABSORB(data) (R166): `UninitializedKey` in UNINIT, and nothing changes; otherwise the inner engine
absorbs, and `macState` becomes ABSORBING, "also when `|data| = 0`". -/
def execMabsorb (data : List Byte) (s : State) : Host.Outcome State Fault Refusal :=
  if s.ME.macState = .uninit then .next (s.raise .uninitializedKey)
  else
    .next ((s.setME { s.ME with inner := absorb s.ME.inner data, macState := .absorbing }).respond .ok)

/-- MFINAL (R168): `UninitializedKey` in UNINIT, and nothing changes; otherwise the inner digest, then
the outer pass over `outerPad(km)` and that digest on the same, reset, engine (R173), then the policy step
(R169). -/
def execMfinal (s : State) : Host.Outcome State Fault Refusal :=
  if s.ME.macState = .uninit then .next (s.raise .uninitializedKey)
  else
    let km := s.ME.keyMaterial
    let (din, E1) := finalize s.ME.inner
    let (mac, E2) := finalize (absorb (absorb E1 (outerPad km)) din)
    .next ((s.setME (afterFinal s.macPostFinal E2 km)).respond (.digest mac))

end Sys2Proof.Machine
end

