-- ==== Sys2Proof/Machine/Dispatch.lean ====
section
/-! DEFINITION. One arm per command of `spec/30_encoding.md` R70. -/

namespace Sys2Proof.Machine

def exec (i : Instr) (s : State) : Host.Outcome State Fault Refusal :=
  match i with
  | .hreset => Sys2Proof.Machine.execHreset s
  | .habsorb data => Sys2Proof.Machine.execHabsorb data s
  | .hfinal => Sys2Proof.Machine.execHfinal s
  | .mreset => Sys2Proof.Machine.execMreset s
  | .mkey key => Sys2Proof.Machine.execMkey key s
  | .mabsorb data => Sys2Proof.Machine.execMabsorb data s
  | .mfinal => Sys2Proof.Machine.execMfinal s

end Sys2Proof.Machine
end

