-- ==== Sys2Proof/Machine/Moves.lean ====
section
/-! DEFINITION. Who moves, and what a move does: the engine's turn (fetch, decode, execute) and the
outside world's moves (`spec/30_encoding.md` R71, R76, R79; `spec/70_reset_and_hazards.md` R220, R221). -/

namespace Sys2Proof.Machine

/-- The engine's turn. A whole frame is consumed and executed (R71, R76). An illegal header is consumed,
that one byte, and answered with IllegalCommand (R78, `60_exceptions.md` R192). While no whole frame has
arrived nothing happens at all: the bytes are kept and nothing is sent (R79; the engine waits, log 4). -/
def engineTurn (s : State) : Host.Outcome State Fault Refusal :=
  match decode s.cmd with
  | .incomplete => .next s
  | .frame i rest => exec i (s.setCmd rest)
  | .illegal _ rest => .next ((s.setCmd rest).raise .illegalCommand)

/-- A move on a state whose schedule is already past it. Delivered bytes go to the end of the command
stream (`20_memory.md` R58); reading takes bytes off the front of the response stream and "has no effect
on the state" besides (R57). -/
def takeMove (m : Move) (s : State) : Host.Outcome State Fault Refusal :=
  match m with
  | .engine => engineTurn s
  | .deliver bytes => .next { s with cmd := s.cmd ++ bytes }
  | .read n => .next { s with resp := s.resp.drop n }
  | .reset => .next s.hardReset

/-- The next move: the schedule's head, or the engine's turn when no move waits (log 3). -/
def nextMove (s : State) : Host.Outcome State Fault Refusal :=
  match s.schedule with
  | [] => engineTurn s
  | m :: rest => takeMove m { s with schedule := rest }

/-- The bytes put in front of the command stream, and the engine's turn put before any move that waits,
so that the next step reads them. -/
def placeFrame (s : State) (bytes : List Byte) : State :=
  { s with
    cmd := bytes ++ s.cmd
    schedule := match s.schedule with
      | [] => []
      | m :: rest => .engine :: m :: rest }

end Sys2Proof.Machine
end

