-- ==== Sys2Proof/Machine/Step.lean ====
section
/-! DEFINITION. One step: one move (`spec/00_scope.md` R10: a command with its whole operand is one atomic
step). -/

namespace Sys2Proof.Machine

/-- The machine's step. -/
def step (s : State) : Host.Outcome State Fault Refusal := nextMove s

/-- `s` with the frame of an opcode-table word next on the command stream (log 15). -/
def State.withFetchWord (s : State) (nbits w : Nat) : State := placeFrame s (tableBytes nbits w)

end Sys2Proof.Machine
end

