-- ==== Sys2Proof/Machine/Assembler.lean ====
section
/-! DEFINITION. Command programs (`spec/30_encoding.md` R85, R86): operands, pseudo-instructions, and the
bytes the assembler emits. The text's layout (lines, comments) is notation and is not parsed (log 16). -/

namespace Sys2Proof.Machine

/-- The operand forms of R85. -/
inductive OperandText where
  /-- `"abc"`: the ASCII codes of the characters, no terminator (`00_scope.md` R8). -/
  | ascii (text : List Char)
  /-- `hex"..."`: bytes in order. -/
  | hex (bytes : List Byte)
  /-- `<byte>*<count>`: a repeated byte. -/
  | repeated (b : Byte) (count : Nat)
  /-- Two operands joined by `‖`. -/
  | join (x y : OperandText)
deriving DecidableEq, Repr

/-- The byte string an operand stands for (R85). -/
def OperandText.bytes : OperandText → List Byte
  | .ascii text => text.map fun c => BitVec.ofNat 8 c.toNat
  | .hex bytes => bytes
  | .repeated b count => List.replicate count b
  | .join x y => x.bytes ++ y.bytes

/-- "The assembler emits `encode` of each line (rule R82), frames concatenated in line order" (R85).
An operand of 2^32 bytes or more, for which `encode` and `HMAC` are undefined (R82, R86), gives the bytes of
log 18 (DESIGN CHOICE). -/
def assemble (program : List Instr) : List Byte := program.flatMap encode

/-- `SHA256 m`: `HRESET ; HABSORB m ; HFINAL`, with `m` split over several HABSORB lines where it is too
long for one (R86). -/
def sha256Program (chunks : List (List Byte)) : List Instr :=
  .hreset :: (chunks.map .habsorb ++ [.hfinal])

/-- `HMAC k, m`: `MRESET ; MKEY k ; MABSORB m ; MFINAL`, with `m` split likewise (R86). -/
def hmacProgram (k : List Byte) (chunks : List (List Byte)) : List Instr :=
  .mreset :: .mkey k :: (chunks.map .mabsorb ++ [.mfinal])

end Sys2Proof.Machine
end

