-- ==== Sys2Proof/Machine/Counts.lean ====
section
/-! DEFINITION. How many times a command invokes CompressionStep (`spec/40_compression.md` R116,
`spec/70_reset_and_hazards.md` R238: "information, not contract"), counted along the meanings' own
operations. -/

namespace Sys2Proof.Machine

/-- The invocations while `bytes` are pushed into an engine: one for each byte that fills a block. -/
def pushCompressions (E : HashState) : List Byte → Nat
  | [] => 0
  | b :: bs =>
    (if (E.pending ++ [b]).length = 64 then 1 else 0) + pushCompressions (pushByte E b) bs

/-- The invocations of `Finalize(E)` (R135): those of its padding. -/
def finalizeCompressions (E : HashState) : Nat :=
  pushCompressions E (pad E.pending.length (lengthBits E))

/-- The invocations of a command on a state, along `execHreset` to `execMfinal`. -/
def commandCompressions (i : Instr) (s : State) : Nat :=
  match i with
  | .hreset => 0
  | .habsorb data => pushCompressions s.HE data
  | .hfinal => finalizeCompressions s.HE
  | .mreset => 0
  | .mkey key =>
    if s.ME.macState ≠ .uninit then 0
    else
      let (km, inner) := processKey s.ME.inner key
      (if key.length > 64 then
        pushCompressions s.ME.inner key + finalizeCompressions (absorb s.ME.inner key) else 0) +
      pushCompressions inner (innerPad km)
  | .mabsorb data => if s.ME.macState = .uninit then 0 else pushCompressions s.ME.inner data
  | .mfinal =>
    if s.ME.macState = .uninit then 0
    else
      let km := s.ME.keyMaterial
      let (din, E1) := finalize s.ME.inner
      let E2 := absorb E1 (outerPad km)
      let E3 := absorb E2 din
      finalizeCompressions s.ME.inner + pushCompressions E1 (outerPad km) +
        pushCompressions E2 din + finalizeCompressions E3 +
      (match s.macPostFinal with
        | .uninit => 0
        | .keyset => pushCompressions (finalize E3).2 (innerPad km))

end Sys2Proof.Machine
end

