-- ==== Sys2Proof/Machine/Reference.lean ====
section
/-! DEFINITION. The two functions the block computes, as the spec defines them apart from the engines:
`SHA256` (`spec/41_hash_engine.md` R137) and `HMAC` (`spec/42_mac_engine.md` R163, R171). No meaning calls
them; statements compare the engines with them. -/

namespace Sys2Proof.Machine

/-- `for k in 0 .. n-1: S <- Compress(S, P[64k .. 64k+63])` (R137). -/
def compressBlocks : Nat → HWords → List Byte → HWords
  | 0, S, _ => S
  | n + 1, S, P => compressBlocks n (compress S (P.take 64)) (P.drop 64)

/-- `P` of R137: `m ‖ [0x80] ‖ 0x00^((55 - |m|) mod 64) ‖ BE64(8 * |m|)`. -/
def sha256Message (m : List Byte) : List Byte :=
  m ++ ([0x80] ++ (List.replicate ((55 - (m.length : Int)) % 64).toNat 0 ++
    BE64 (BitVec.ofNat 64 (8 * m.length))))

/-- `SHA256(m)` (R137), for `|m| < 2^61`. -/
def sha256 (m : List Byte) : List Byte :=
  digest (compressBlocks ((sha256Message m).length / 64) IV (sha256Message m))

/-- `EffectiveKey(k)` (`42_mac_engine.md` R163): "The comparison is strict". -/
def effectiveKey (k : List Byte) : List Byte := if k.length > 64 then sha256 k else k

/-- `HMAC(k, m) = SHA256( outerPad(km) ‖ SHA256( innerPad(km) ‖ m ) )` with `km = EffectiveKey(k)`
(`42_mac_engine.md` R171). -/
def hmac (k m : List Byte) : List Byte :=
  sha256 (outerPad (effectiveKey k) ++ sha256 (innerPad (effectiveKey k) ++ m))

end Sys2Proof.Machine
end

