-- ==== Sys2Proof/Safety.lean ====
section
/-! DEFINITION. The terms claims use: which engine a command acts on, several commands in a row, whose turn it
is, and the invariants of `spec/10_state.md` R24 and R30, "true whenever no command is in progress". -/

namespace Sys2Proof

/-! ### Commands -/

/-- The command acts on the standalone engine: ENG = 0 (`30_encoding.md` R74); the others act on
MacEngine. -/
def Instr.forHash : Instr → Bool
  | .hreset | .habsorb _ | .hfinal => true
  | .mreset | .mkey _ | .mabsorb _ | .mfinal => false

/-- The bytes a command absorbs into the standalone engine. -/
def Instr.hashData : Instr → List Byte
  | .habsorb data => data
  | .hreset | .hfinal | .mreset | .mkey _ | .mabsorb _ | .mfinal => []

/-- The bytes a command absorbs into a MAC message. -/
def Instr.macData : Instr → List Byte
  | .mabsorb data => data
  | .hreset | .habsorb _ | .hfinal | .mreset | .mkey _ | .mfinal => []

end Sys2Proof

namespace Sys2Proof.Machine

/-- Commands one after another, "each completely before the next starts" (`20_memory.md` R58). -/
def execAll : List Instr → State → Host.Outcome State Fault Refusal
  | [], s => .next s
  | i :: rest, s =>
    match exec i s with
    | .next t => execAll rest t
    | .fault r => .fault r
    | .refused r => .refused r

/-- The next step is the engine's: no outside move comes before it (the model's schedule, log 3). -/
abbrev State.EnginesTurn (s : State) : Prop :=
  s.schedule.head? = none ∨ s.schedule.head? = some .engine

/-! ### Invariants -/

/-- R24: `|pending| = byteCount mod 64`. -/
abbrev HashState.Fill (E : HashState) : Prop := E.pending.length = E.byteCount.toNat % 64

/-- The engine holds some message absorbed since its last reset (R22, R23: nothing else writes it). -/
def HashState.HoldsMessage (E : HashState) : Prop := ∃ m, E = absorb .reset m

/-- R30. -/
structure MacState.Inv (M : MacState) : Prop where
  /-- (a) `|keyMaterial| <= 64`. -/
  key_le : M.keyMaterial.length ≤ 64
  /-- (b) In UNINIT the inner engine is in its reset state and there is no key. -/
  uninit_reset : M.macState = .uninit → M.inner = .reset ∧ M.keyMaterial = []
  /-- (c) With a key set the inner engine has absorbed `innerPad(keyMaterial) ‖ m`. -/
  keyed_message : M.macState ≠ .uninit → ∃ m, M.inner = absorb .reset (innerPad M.keyMaterial ++ m)
  /-- (c) In KEYSET, `m = ε`. -/
  keyset_start : M.macState = .keyset → M.inner = absorb .reset (innerPad M.keyMaterial)
  /-- (d) R24 holds for the inner engine. -/
  inner_fill : M.inner.Fill

/-- What every state between two commands meets, from reset on (R24, R30). -/
structure State.Inv (s : State) : Prop where
  /-- The standalone engine holds a message. -/
  he_message : s.HE.HoldsMessage
  /-- R24 for the standalone engine. -/
  he_fill : s.HE.Fill
  /-- R30 for MacEngine. -/
  me_inv : s.ME.Inv

end Sys2Proof.Machine
end

