-- ==== Sys2Proof/Certificates/Slice0/Obligations.lean ====
section
/-! DEFINITION. The statements for the provers, from the numbered rules of spec/. Where a docstring says
"spec-derived", the rule's sentence stands in the spec with the mark [derived] or [general knowledge]. -/

open Sys2Proof Sys2Proof.Machine

/-! ### Encoding (`30_encoding.md`) -/

/-- R82's sentence "decode(encode(c) ‖ r) = Frame(c, r)" (spec-derived), for every command and operand. -/
def Obligations.DecodeOfEncodeIsTheCommand : Prop :=
  ∀ (i : Instr) (r : List Byte), i.WellFormed → decode (encode i ++ r) = .frame i r

/-- R82's "each command has exactly one encoding" (spec-derived): a decoded frame is a well-formed command
and its bytes are that command's encoding. -/
def Obligations.DecodedFrameIsItsEncoding : Prop :=
  ∀ (s r : List Byte) (i : Instr), decode s = .frame i r → i.WellFormed ∧ s = encode i ++ r

/-- R76, the whole of `decode`: the headers of R77, LEN as the big-endian number of R75, Incomplete while
bytes are missing, Illegal for every other header. -/
def Obligations.DecodeFollowsTheFrameFormats : Prop :=
  decode [] = .incomplete ∧
  (∀ s : List Byte,
    decode (0x01 :: s) = .frame .hreset s ∧ decode (0x03 :: s) = .frame .hfinal s ∧
    decode (0x11 :: s) = .frame .mreset s ∧ decode (0x13 :: s) = .frame .mfinal s) ∧
  (∀ (h : Byte) (cmd : List Byte → Instr),
    (h = 0x02 ∧ cmd = Instr.habsorb) ∨ (h = 0x12 ∧ cmd = Instr.mabsorb) ∨
      (h = 0x14 ∧ cmd = Instr.mkey) →
    (∀ s : List Byte, s.length < 4 → decode (h :: s) = .incomplete) ∧
    ∀ (l0 l1 l2 l3 : Byte) (s : List Byte) (len : Nat),
      len = l0.toNat * 2 ^ 24 + l1.toNat * 2 ^ 16 + l2.toNat * 2 ^ 8 + l3.toNat →
      decode (h :: l0 :: l1 :: l2 :: l3 :: s) =
        if s.length < len then .incomplete else .frame (cmd (s.take len)) (s.drop len)) ∧
  ∀ (h : Byte) (s : List Byte),
    h ∉ ([0x01, 0x02, 0x03, 0x11, 0x12, 0x13, 0x14] : List Byte) → decode (h :: s) = .illegal h s

/-- R74: Z1 and Z0 must be zero, ENG selects the engine, OP the operation, KEY for ENG = 1 only; any other
byte is illegal. -/
def Obligations.HeaderFieldsSelectTheCommand : Prop :=
  (∀ (h : Byte) (s : List Byte),
    decode (h :: s) = .illegal h s ↔
      ¬ (hdrZ1 h = 0 ∧ hdrZ0 h = 0 ∧
        (hdrOP h = 1 ∨ hdrOP h = 2 ∨ hdrOP h = 3 ∨ (hdrOP h = 4 ∧ hdrENG h = 1)))) ∧
  ∀ (h : Byte) (s r : List Byte) (i : Instr), decode (h :: s) = .frame i r →
    (hdrENG h = 0 ↔ i.forHash = true) ∧
    (hdrOP h = 1 ↔ i = .hreset ∨ i = .mreset) ∧
    (hdrOP h = 2 ↔ ∃ d, i = .habsorb d ∨ i = .mabsorb d) ∧
    (hdrOP h = 3 ↔ i = .hfinal ∨ i = .mfinal) ∧
    (hdrOP h = 4 ↔ ∃ k, i = .mkey k)

/-- Sanity: frames written out bit by bit from R72 to R77 decode to their commands. -/
def Obligations.WrittenOutFramesDecode : Prop :=
  decode [0b00000001] = .frame .hreset [] ∧
  decode [0b00000010, 0b00000000, 0b00000000, 0b00000000, 0b00000011, 0b01100001, 0b01100010, 0b01100011] =
    .frame (.habsorb [0x61, 0x62, 0x63]) [] ∧
  decode [0b00010100, 0b00000000, 0b00000000, 0b00000000, 0b00000001, 0b01101011, 0b00010011] =
    .frame (.mkey [0x6b]) [0x13] ∧
  decode [0b00010011] = .frame .mfinal []

/-! ### Step, streams and RESET -/

/-- R71, R76: when the bytes at the front of the command stream decode to a command, the engine's turn is
that command on the state with its frame consumed. The engine has its turn when no outside move waits, or
when its own move is next (the model's schedule, log 3). -/
def Obligations.StepRunsTheDecodedCommand : Prop :=
  ∀ (s : State) (i : Instr) (rest : List Byte), decode s.cmd = .frame i rest →
    (s.schedule = [] → step s = exec i { s with cmd := rest }) ∧
    ∀ later : List Move, s.schedule = .engine :: later →
      step s = exec i { s with cmd := rest, schedule := later }

/-- R192: any other byte at a header position is consumed alone and answered with 0x03, and nothing else
changes. Both forms of the engine's turn, as in `StepRunsTheDecodedCommand` (the model's schedule, log 3).
-/
def Obligations.IllegalHeaderAnswersIllegalCommand : Prop :=
  ∀ (s : State) (h : Byte) (rest : List Byte), s.cmd = h :: rest →
    h ∉ ([0x01, 0x02, 0x03, 0x11, 0x12, 0x13, 0x14] : List Byte) →
    (s.schedule = [] → step s = .next { s with cmd := rest, resp := s.resp ++ [0x03] }) ∧
    ∀ later : List Move, s.schedule = .engine :: later →
      step s = .next { s with cmd := rest, resp := s.resp ++ [0x03], schedule := later }

/-- R79's "how the bytes are cut into deliveries has no effect" (program P6, spec-derived): a frame that
arrives in any pieces, the engine having a turn after each, runs when its last piece is in and not
before. That a waiting turn leaves the state as it is, is the model's choice (log 4); the schedule is the
model's (log 3). -/
def Obligations.FrameInPiecesRunsWhenWhole : Prop :=
  ∀ (s : State) (i : Instr) (pieces : List (List Byte)) (last : List Byte) (later : List Move),
    i.WellFormed → s.cmd = [] → last ≠ [] → encode i = pieces.flatten ++ last →
    s.schedule = (pieces.flatMap fun p => [Move.deliver p, Move.engine]) ++
      (.deliver last :: .engine :: later) →
    Host.Core.run Sys2Proof.core (2 * pieces.length + 2) s = exec i { s with schedule := later }

/-- R220: RESET puts every element to its reset value and empties both streams, whatever they held; on
`HE` it does what HRESET does and on `ME` what MRESET does. -/
def Obligations.ResetEventRestoresEveryElement : Prop :=
  ∀ (s : State) (later : List Move), s.schedule = .reset :: later →
    ∃ t u v, step s = .next t ∧ exec .hreset s = .next u ∧ exec .mreset s = .next v ∧
      t.HE = { H := IV, byteCount := 0, pending := [] } ∧
      t.ME = { inner := { H := IV, byteCount := 0, pending := [] }, macState := .uninit,
               keyMaterial := [] } ∧
      t.cmd = [] ∧ t.resp = [] ∧ t.HE = u.HE ∧ t.ME = v.ME

/-- The outside world's other moves, and what RESET leaves of the model's own fields: the model's choice
(logs 3 and 5). Delivered bytes go to the end of the command stream, read bytes leave the front of the
response stream, and no move but the engine's is answered. -/
def Obligations.OutsideMovesTouchOnlyTheStreams : Prop :=
  ∀ (s : State) (later : List Move),
    (∀ bytes, s.schedule = .deliver bytes :: later →
      step s = .next { s with cmd := s.cmd ++ bytes, schedule := later }) ∧
    (∀ n, s.schedule = .read n :: later →
      step s = .next { s with resp := s.resp.drop n, schedule := later }) ∧
    (s.schedule = .reset :: later →
      ∃ t, step s = .next t ∧ t.macPostFinal = s.macPostFinal ∧ t.schedule = later)

/-- R35: the value of every element of the state after RESET, and the commands that leave an engine at
the same values. -/
def Obligations.StateAfterResetIsAsTabulated : Prop :=
  State.reset.HE = { H := IV, byteCount := 0, pending := [] } ∧
  State.reset.ME.inner = { H := IV, byteCount := 0, pending := [] } ∧
  State.reset.ME.macState = .uninit ∧ State.reset.ME.keyMaterial = [] ∧
  State.reset.cmd = [] ∧ State.reset.resp = [] ∧
  ∀ s : State,
    (∃ t, exec .hreset s = .next t ∧ t.HE = State.reset.HE) ∧
    (∃ t, exec .hfinal s = .next t ∧ t.HE = State.reset.HE) ∧
    (∃ t, exec .mreset s = .next t ∧ t.ME = State.reset.ME) ∧
    (s.ME.macState ≠ .uninit → s.macPostFinal = .uninit →
      ∃ t, exec .mfinal s = .next t ∧ t.ME = State.reset.ME)

/-! ### CompressionStep (`40_compression.md`) -/

/-- R112 (with R50): the first 16 schedule words are the block's big-endian words, the other 48 follow the
recurrence, and there are 64. -/
def Obligations.ScheduleFollowsTheRecurrence : Prop :=
  ∀ block : List Byte, block.length = 64 →
    (schedule block).length = 64 ∧
    (∀ t, t < 16 → ((schedule block).getD t 0).toNat =
      (block.getD (4 * t) 0).toNat * 2 ^ 24 + (block.getD (4 * t + 1) 0).toNat * 2 ^ 16 +
      (block.getD (4 * t + 2) 0).toNat * 2 ^ 8 + (block.getD (4 * t + 3) 0).toNat) ∧
    ∀ t, 16 ≤ t → t < 64 → (schedule block).getD t 0 =
      sigma1 ((schedule block).getD (t - 2) 0) + (schedule block).getD (t - 7) 0 +
      sigma0 ((schedule block).getD (t - 15) 0) + (schedule block).getD (t - 16) 0

/-- R101's "the `u32` whose bit `i` is bit `(i + n) mod 32` of `x`" (general knowledge in the spec, G5;
log 7). -/
def Obligations.RotrMovesEveryBit : Prop :=
  ∀ (x : Word) (n i : Nat), 0 < n → n < 32 → i < 32 →
    (rotr x n).getLsbD i = x.getLsbD ((i + n) % 32)

/-- R104 to R107 and R110 bit by bit (R110's reading of Ch and Maj is spec-derived, rotr is G5): which
bits of the operands each of the six mixing functions takes. -/
def Obligations.MixingFunctionsBitByBit : Prop :=
  ∀ (x y z : Word) (i : Nat), i < 32 →
    (sigma0 x).getLsbD i =
      (x.getLsbD ((i + 7) % 32) ^^ x.getLsbD ((i + 18) % 32) ^^ x.getLsbD (i + 3)) ∧
    (sigma1 x).getLsbD i =
      (x.getLsbD ((i + 17) % 32) ^^ x.getLsbD ((i + 19) % 32) ^^ x.getLsbD (i + 10)) ∧
    (bigSigma0 x).getLsbD i =
      (x.getLsbD ((i + 2) % 32) ^^ x.getLsbD ((i + 13) % 32) ^^ x.getLsbD ((i + 22) % 32)) ∧
    (bigSigma1 x).getLsbD i =
      (x.getLsbD ((i + 6) % 32) ^^ x.getLsbD ((i + 11) % 32) ^^ x.getLsbD ((i + 25) % 32)) ∧
    (Ch x y z).getLsbD i = (if x.getLsbD i then y.getLsbD i else z.getLsbD i) ∧
    (Maj x y z).getLsbD i = decide (2 ≤ (x.getLsbD i).toNat + (y.getLsbD i).toNat + (z.getLsbD i).toNat)

/-- R111, R113, R114, R115: CompressionStep is 64 rounds from the input words, round `t` with `K[t]` and
`W[t]`, and the feed-forward. The round's assignment is general knowledge in the spec (G3; log 7). The words
of `K` are those of `ConstantTablesAreTheSpecs`. -/
def Obligations.CompressIsSixtyFourRoundsAndFeedForward : Prop :=
  ∀ (S : HWords) (block : List Byte), block.length = 64 →
    ∃ v : Nat → Vars,
      v 0 = { a := S.h0, b := S.h1, c := S.h2, d := S.h3, e := S.h4, f := S.h5, g := S.h6, h := S.h7 } ∧
      (∀ t, t < 64 → ∃ t1 t2 : Word,
        t1 = (v t).h + bigSigma1 (v t).e + Ch (v t).e (v t).f (v t).g + K.getD t 0 +
          (schedule block).getD t 0 ∧
        t2 = bigSigma0 (v t).a + Maj (v t).a (v t).b (v t).c ∧
        v (t + 1) = { a := t1 + t2, b := (v t).a, c := (v t).b, d := (v t).c, e := (v t).d + t1,
                      f := (v t).e, g := (v t).f, h := (v t).g }) ∧
      compress S block =
        { h0 := S.h0 + (v 64).a, h1 := S.h1 + (v 64).b, h2 := S.h2 + (v 64).c, h3 := S.h3 + (v 64).d,
          h4 := S.h4 + (v 64).e, h5 := S.h5 + (v 64).f, h6 := S.h6 + (v 64).g, h7 := S.h7 + (v 64).h }

/-- R52: the digest has 32 bytes and `digest[4j + k] = H[j][31-8k : 24-8k]`. -/
def Obligations.DigestIsBigEndian : Prop :=
  ∀ H : HWords, (digest H).length = 32 ∧
    ∀ j k, j < 8 → k < 4 →
      (digest H).getD (4 * j + k) 0 = (H.toList.getD j 0).extractLsb' (24 - 8 * k) 8

/-! ### HashEngine (`41_hash_engine.md`) -/

/-- R131 with R130: HRESET (header 01) puts `HE` into the reset state, answers 00, and changes nothing
else. -/
def Obligations.HresetWipesTheHashEngine : Prop :=
  (∀ r, decode (0x01 :: r) = .frame .hreset r) ∧
  ∀ s : State, exec .hreset s =
    .next { s with HE := { H := IV, byteCount := 0, pending := [] }, resp := s.resp ++ [0x00] }

/-- R132: HABSORB absorbs its operand one byte at a time, first byte first: the byte is appended and
counted modulo 2^64, and the block is compressed and cleared as soon as it has 64 bytes. An empty operand
changes nothing but the response. -/
def Obligations.HabsorbAbsorbsByteByByte : Prop :=
  ∀ s : State,
    exec (.habsorb []) s = .next { s with resp := s.resp ++ [0x00] } ∧
    ∀ (b : Byte) (data : List Byte), exec (.habsorb (b :: data)) s =
      exec (.habsorb data) { s with
        HE := if s.HE.pending.length + 1 = 64 then
            { H := compress s.HE.H (s.HE.pending ++ [b]), byteCount := s.HE.byteCount + 1, pending := [] }
          else
            { H := s.HE.H, byteCount := s.HE.byteCount + 1, pending := s.HE.pending ++ [b] } }

/-- R133's "Equivalently" (spec-derived): the whole blocks of `pending ‖ data` are compressed in order, the
rest is pending, the counter grows by `|data|` modulo 2^64; the response is 00 and nothing else changes. -/
def Obligations.HabsorbCompressesWholeBlocks : Prop :=
  ∀ (s : State) (data msg : List Byte), s.HE.pending.length ≤ 63 → msg = s.HE.pending ++ data →
    exec (.habsorb data) s = .next { s with
      HE := { H := compressBlocks (msg.length / 64) s.HE.H msg
              byteCount := s.HE.byteCount + BitVec.ofNat 64 data.length
              pending := msg.drop (msg.length - msg.length % 64) }
      resp := s.resp ++ [0x00] }

/-- R134, R135 (lengths of R138): HFINAL (header 03) pads in one block when at most 55 bytes are pending
and in two when 56 to 63 are, answers 00 and the digest, and leaves `HE` in its reset state and the rest
as it was. -/
def Obligations.HfinalPadsInOneOrTwoBlocks : Prop :=
  (∀ r, decode (0x03 :: r) = .frame .hfinal r) ∧
  ∀ s : State,
    (s.HE.pending.length ≤ 55 → exec .hfinal s = .next { s with
      HE := { H := IV, byteCount := 0, pending := [] }
      resp := s.resp ++ 0x00 :: digest (compress s.HE.H
        (s.HE.pending ++ 0x80 :: (List.replicate (55 - s.HE.pending.length) 0x00 ++
          BE64 (s.HE.byteCount * 8)))) }) ∧
    (56 ≤ s.HE.pending.length → s.HE.pending.length ≤ 63 → exec .hfinal s = .next { s with
      HE := { H := IV, byteCount := 0, pending := [] }
      resp := s.resp ++ 0x00 :: digest (compress
        (compress s.HE.H (s.HE.pending ++ 0x80 :: List.replicate (63 - s.HE.pending.length) 0x00))
        (List.replicate 56 0x00 ++ BE64 (s.HE.byteCount * 8))) })

/-- R139 (its sentence on the whole of `HE` is spec-derived), with MAC commands interleaved: any HABSORB
commands, with any MAC commands between them, leave `HE` as one HABSORB of all their operands in order
does, and HFINAL then answers the same digest. -/
def Obligations.HashIsIndependentOfChunking : Prop :=
  ∀ (p : List Instr) (s : State), (∀ i ∈ p, i.forHash = false ∨ ∃ d, i = .habsorb d) →
    ∃ t u t' u' d, execAll p s = .next t ∧ exec (.habsorb (p.flatMap Instr.hashData)) s = .next u ∧
      t.HE = u.HE ∧ exec .hfinal t = .next t' ∧ exec .hfinal u = .next u' ∧
      t'.resp = t.resp ++ 0x00 :: d ∧ u'.resp = u.resp ++ 0x00 :: d

/-- R140: after HFINAL `HE` is as after RESET and as after HRESET, and every later sequence of hash commands
answers, and leaves `HE`, exactly as on a machine just after RESET. -/
def Obligations.HashEngineIsReusableAfterFinalize : Prop :=
  ∀ (s : State) (p : List Instr), (∀ i ∈ p, i.forHash = true) →
    ∃ t w u v r, exec .hfinal s = .next t ∧ exec .hreset s = .next w ∧
      t.HE = State.reset.HE ∧ t.HE = w.HE ∧ execAll p t = .next u ∧
      execAll p State.reset = .next v ∧ u.HE = v.HE ∧ u.resp = t.resp ++ r ∧ v.resp = State.reset.resp ++ r

/-- R231's "A second HFINAL does not repeat it: it returns `SHA256(ε)`" (from R135 and R137, the latter
spec-derived). -/
def Obligations.SecondHfinalAnswersTheEmptyDigest : Prop :=
  ∀ s : State, ∃ t u, exec .hfinal s = .next t ∧ exec .hfinal t = .next u ∧
    u.resp = t.resp ++ 0x00 :: sha256 [] ∧ u.HE = t.HE

/-- R86 with R137 (spec-derived), the headline of the hash family, from the bytes on the command stream to
the bytes on the response stream: the program `SHA256 m`, its message in any chunks, answers `SHA256(m)`
and leaves the rest of the machine as it was. -/
def Obligations.Sha256ProgramAnswersTheDigest : Prop :=
  ∀ (s : State) (chunks : List (List Byte)) (rest : List Byte),
    s.schedule = [] → s.cmd = assemble (sha256Program chunks) ++ rest →
    (∀ c ∈ chunks, c.length < 2 ^ 32) → chunks.flatten.length < 2 ^ 61 →
    Host.Core.run Sys2Proof.core (chunks.length + 2) s =
      .next ({ s with
        HE := { H := IV, byteCount := 0, pending := [] }
        cmd := rest
        resp := s.resp ++ List.replicate (chunks.length + 1) 0x00 ++
          0x00 :: sha256 chunks.flatten } : State)

/-! ### MacEngine (`42_mac_engine.md`) -/

/-- R29: both pads have 64 bytes, byte `i` being the key's (or 0x00 past its end) XOR the constant. -/
def Obligations.PadsExtendTheKeyWithZeros : Prop :=
  ∀ km : List Byte, km.length ≤ 64 →
    (innerPad km).length = 64 ∧ (outerPad km).length = 64 ∧
    ∀ i, i < 64 →
      (innerPad km)[i]? = some ((if h : i < km.length then km[i] else 0x00) ^^^ 0x36) ∧
      (outerPad km)[i]? = some ((if h : i < km.length then km[i] else 0x00) ^^^ 0x5C)

/-- R162: MRESET (header 11) puts `ME` into its reset state in every state, answers 00, and changes nothing
else. -/
def Obligations.MresetWipesTheMacEngine : Prop :=
  (∀ r, decode (0x11 :: r) = .frame .mreset r) ∧
  ∀ s : State, exec .mreset s = .next { s with
    ME := { inner := { H := IV, byteCount := 0, pending := [] }, macState := .uninit, keyMaterial := [] }
    resp := s.resp ++ [0x00] }

/-- R163, R164 with R164's "After a successful MKEY" (spec-derived): from UNINIT, the inner engine in its
reset state (R30 (b)), MKEY stores the effective key, leaves the inner engine after the one block
`innerPad`, and answers 00. -/
def Obligations.MkeyTakesTheKeyIntoUse : Prop :=
  ∀ (s : State) (key : List Byte), s.ME.macState = .uninit → s.ME.inner = HashState.reset →
    key.length < 2 ^ 61 →
    exec (.mkey key) s = .next { s with
      ME := { inner := { H := compress IV (innerPad (effectiveKey key)), byteCount := 64, pending := [] }
              macState := .keyset
              keyMaterial := effectiveKey key }
      resp := s.resp ++ [0x00] }

/-- R191 with R193: MKEY in KEYSET or ABSORBING answers 02 and changes nothing, and nothing else answers
02. -/
def Obligations.MkeyWithAKeySetIsRefused : Prop :=
  ∀ s : State,
    (∀ key, s.ME.macState ≠ .uninit →
      exec (.mkey key) s = .next { s with resp := s.resp ++ [0x02] }) ∧
    ∀ (i : Instr) (t : State), exec i s = .next t → t.resp = s.resp ++ [0x02] →
      s.ME.macState ≠ .uninit ∧ ∃ key, i = .mkey key

/-- R190 with R193: MABSORB and MFINAL in UNINIT answer 01 and change nothing, and nothing else answers
01. -/
def Obligations.MacWithoutAKeyIsRefused : Prop :=
  ∀ s : State,
    (s.ME.macState = .uninit →
      (∀ data, exec (.mabsorb data) s = .next { s with resp := s.resp ++ [0x01] }) ∧
      exec .mfinal s = .next { s with resp := s.resp ++ [0x01] }) ∧
    ∀ (i : Instr) (t : State), exec i s = .next t → t.resp = s.resp ++ [0x01] →
      s.ME.macState = .uninit ∧ (i = .mfinal ∨ ∃ data, i = .mabsorb data)

/-- R166 with R133's "Equivalently" (spec-derived): with a key set MABSORB absorbs into the inner engine,
sets ABSORBING even for an empty operand (decision D16), answers 00, and changes nothing else. -/
def Obligations.MabsorbExtendsTheMessage : Prop :=
  ∀ (s : State) (data msg : List Byte), s.ME.macState ≠ .uninit → s.ME.inner.pending.length ≤ 63 →
    msg = s.ME.inner.pending ++ data →
    exec (.mabsorb data) s = .next { s with
      ME := { inner := { H := compressBlocks (msg.length / 64) s.ME.inner.H msg
                         byteCount := s.ME.inner.byteCount + BitVec.ofNat 64 data.length
                         pending := msg.drop (msg.length - msg.length % 64) }
              macState := .absorbing
              keyMaterial := s.ME.keyMaterial }
      resp := s.resp ++ [0x00] }

/-- R168, R169, R173: MFINAL in UNINIT is refused; otherwise it answers `SHA256(outerPad ‖ din)` (R137,
spec-derived), `din` the digest HFINAL would answer for the inner engine, leaving it reset, and leaves `ME`
as the policy says: in its reset state, or as after the MKEY of this key. -/
def Obligations.MfinalHashesTheInnerDigest : Prop :=
  ∀ s : State,
    (s.ME.macState = .uninit → exec .mfinal s = .next { s with resp := s.resp ++ [0x01] }) ∧
    (s.ME.macState ≠ .uninit → ∃ (u : State) (din : List Byte),
      exec .hfinal { s with HE := s.ME.inner } = .next u ∧ u.resp = s.resp ++ 0x00 :: din ∧
      u.HE = { H := IV, byteCount := 0, pending := [] } ∧
      exec .mfinal s = .next { s with
        ME := match s.macPostFinal with
          | .uninit =>
            { inner := { H := IV, byteCount := 0, pending := [] }, macState := .uninit, keyMaterial := [] }
          | .keyset =>
            { inner := { H := compress IV (innerPad s.ME.keyMaterial), byteCount := 64, pending := [] }
              macState := .keyset
              keyMaterial := s.ME.keyMaterial }
        resp := s.resp ++ 0x00 :: sha256 (outerPad s.ME.keyMaterial ++ din) })

/-- R166's "same equivalence guarantee": with a key set, any MABSORB commands (at least one), with any hash
commands between them, leave `ME` as one MABSORB of all their operands in order does. -/
def Obligations.MacIsIndependentOfChunking : Prop :=
  ∀ (p : List Instr) (s : State), s.ME.macState ≠ .uninit →
    (∀ i ∈ p, i.forHash = true ∨ ∃ d, i = .mabsorb d) → (∃ d, .mabsorb d ∈ p) →
    ∃ t u, execAll p s = .next t ∧ exec (.mabsorb (p.flatMap Instr.macData)) s = .next u ∧ t.ME = u.ME

/-- R160 (its MFINAL row from KEYSET is spec-derived): the complete transition table of `macState`, every
command completing in every state; an illegal header, met in the engine's turn (log 3), leaves it and RESET
makes it UNINIT. -/
def Obligations.MacStateFollowsTheTransitionTable : Prop :=
  (∀ (i : Instr) (s : State), ∃ t, exec i s = .next t ∧
    t.ME.macState =
      match i, s.ME.macState with
      | .mreset, _ => MacPhase.uninit
      | .mkey _, .uninit => .keyset
      | .mkey _, .keyset => .keyset
      | .mkey _, .absorbing => .absorbing
      | .mabsorb _, .uninit => .uninit
      | .mabsorb _, .keyset => .absorbing
      | .mabsorb _, .absorbing => .absorbing
      | .mfinal, .uninit => .uninit
      | .mfinal, _ => (match s.macPostFinal with | .uninit => .uninit | .keyset => .keyset)
      | .hreset, p => p
      | .habsorb _, p => p
      | .hfinal, p => p) ∧
  (∀ (s : State) (h : Byte) (rest : List Byte), s.EnginesTurn → decode s.cmd = .illegal h rest →
    ∃ t, step s = .next t ∧ t.ME.macState = s.ME.macState) ∧
  ∀ (s : State) (later : List Move), s.schedule = .reset :: later →
    ∃ t, step s = .next t ∧ t.ME.macState = .uninit

/-- R86 with R171 (spec-derived), the headline of the MAC family, from command bytes to response bytes: the
program `HMAC k, m`, its message in any chunks, answers `HMAC(k, m)` under both policies, leaves `ME` as
the policy says, and the rest of the machine as it was. -/
def Obligations.HmacProgramAnswersTheMac : Prop :=
  ∀ (s : State) (k : List Byte) (chunks : List (List Byte)) (rest : List Byte),
    s.schedule = [] → s.cmd = assemble (hmacProgram k chunks) ++ rest →
    k.length < 2 ^ 32 → (∀ c ∈ chunks, c.length < 2 ^ 32) → 64 + chunks.flatten.length < 2 ^ 61 →
    Host.Core.run Sys2Proof.core (chunks.length + 3) s =
      .next ({ s with
        ME := match s.macPostFinal with
          | .uninit =>
            { inner := { H := IV, byteCount := 0, pending := [] }, macState := .uninit, keyMaterial := [] }
          | .keyset =>
            { inner := { H := compress IV (innerPad (effectiveKey k)), byteCount := 64, pending := [] }
              macState := .keyset
              keyMaterial := effectiveKey k }
        cmd := rest
        resp := s.resp ++ List.replicate (chunks.length + 2) 0x00 ++
          0x00 :: hmac k chunks.flatten } : State)

/-- R233 (a consequence the spec draws): a second message without a second MKEY is authenticated under the
same key where MAC_POST_FINAL is KEYSET, and refused twice where it is UNINIT. -/
def Obligations.SecondMessageFollowsThePolicy : Prop :=
  ∀ (s : State) (k m1 m2 : List Byte), s.ME.macState = .uninit → s.ME.inner = HashState.reset →
    k.length < 2 ^ 61 → 64 + m1.length < 2 ^ 61 → 64 + m2.length < 2 ^ 61 →
    ∃ t, execAll [.mkey k, .mabsorb m1, .mfinal, .mabsorb m2, .mfinal] s = .next t ∧
      t.resp = s.resp ++ [0x00, 0x00] ++ 0x00 :: hmac k m1 ++
        (match s.macPostFinal with
          | .uninit => [0x01, 0x01]
          | .keyset => 0x00 :: 0x00 :: hmac k m2) ∧
      t.HE = s.HE

/-- V51 and V52's remarks (spec-derived): zero bytes after a short key do not change the MAC, and a key
longer than 64 bytes gives the MAC of its digest. -/
def Obligations.HmacKeysThatCannotBeToldApart : Prop :=
  (∀ (k m : List Byte) (n : Nat), k.length + n ≤ 64 → hmac (k ++ List.replicate n 0x00) m = hmac k m) ∧
  ∀ k m : List Byte, 64 < k.length → hmac k m = hmac (sha256 k) m

/-! ### Whole-machine rules -/

/-- R80 with R81: every command completes in every state and is answered by exactly one response: 00 and 32
bytes for HFINAL, and for MFINAL with a key set; one byte for everything else, 00 unless it is an
error's; an illegal header, met in the engine's turn (log 3), is answered by the one byte 03. -/
def Obligations.EveryCommandIsAnsweredOnce : Prop :=
  (∀ (s : State) (h : Byte) (rest : List Byte), s.EnginesTurn → decode s.cmd = .illegal h rest →
    ∃ t, step s = .next t ∧ t.resp = s.resp ++ [0x03]) ∧
  ∀ (i : Instr) (s : State), ∃ t, exec i s = .next t ∧
    match i with
    | .hfinal => ∃ d : List Byte, d.length = 32 ∧ t.resp = s.resp ++ 0x00 :: d
    | .mfinal =>
      if s.ME.macState = .uninit then t.resp = s.resp ++ [0x01]
      else ∃ d : List Byte, d.length = 32 ∧ t.resp = s.resp ++ 0x00 :: d
    | .hreset => t.resp = s.resp ++ [0x00]
    | .habsorb _ => t.resp = s.resp ++ [0x00]
    | .mreset => t.resp = s.resp ++ [0x00]
    | .mkey _ => t.resp = s.resp ++ [if s.ME.macState = .uninit then 0x00 else 0x02]
    | .mabsorb _ => t.resp = s.resp ++ [if s.ME.macState = .uninit then 0x01 else 0x00]

/-- R25, and the frame of every command: a hash command leaves `ME`, a MAC command leaves `HE`, and no
command touches the bytes still to be decoded, the outside world's moves or the machine's parameter; of
the responses already sent none changes. The parameter, the streams and the moves are fields by the model's
choice (logs 1, 2, 3). -/
def Obligations.CommandsKeepToTheirEngine : Prop :=
  ∀ (i : Instr) (s : State), ∃ t, exec i s = .next t ∧
    (i.forHash = true → t.ME = s.ME) ∧ (i.forHash = false → t.HE = s.HE) ∧
    t.cmd = s.cmd ∧ t.schedule = s.schedule ∧ t.macPostFinal = s.macPostFinal ∧
    ∃ r : List Byte, r ≠ [] ∧ t.resp = s.resp ++ r

/-- R60 (spec-derived): a hash command and a MAC command in either order leave both engines the same and
get the same answers, each command the one it gets alone. -/
def Obligations.HashAndMacCommandsCommute : Prop :=
  ∀ (i j : Instr) (s : State), i.forHash = true → j.forHash = false →
    ∃ a b t u ri rj, exec i s = .next a ∧ a.resp = s.resp ++ ri ∧
      exec j s = .next b ∧ b.resp = s.resp ++ rj ∧
      execAll [i, j] s = .next t ∧ execAll [j, i] s = .next u ∧
      t.HE = u.HE ∧ t.ME = u.ME ∧ t.resp = s.resp ++ ri ++ rj ∧ u.resp = s.resp ++ rj ++ ri

/-- R193 (and the causes of R190 to R192, "all there are" by R194): a step that answers an error's status
has consumed the whole frame (one byte for an illegal header), changed no element of the state, and had
the cause the rules name; there is no other error. The engine's turn is the model's schedule (log 3). -/
def Obligations.ErrorsHaveTheirCausesAndChangeNothing : Prop :=
  ∀ (s t : State) (e : Byte), s.EnginesTurn → step s = .next t → e ≠ 0x00 →
    t.resp = s.resp ++ [e] →
    t.HE = s.HE ∧ t.ME = s.ME ∧
    ((∃ i : Instr, i.WellFormed ∧ s.cmd = encode i ++ t.cmd ∧
      ((e = 0x01 ∧ s.ME.macState = .uninit ∧ (i = .mfinal ∨ ∃ d, i = .mabsorb d)) ∨
        (e = 0x02 ∧ s.ME.macState ≠ .uninit ∧ ∃ k, i = .mkey k))) ∨
     (∃ h : Byte, h ∉ ([0x01, 0x02, 0x03, 0x11, 0x12, 0x13, 0x14] : List Byte) ∧
      s.cmd = h :: t.cmd ∧ e = 0x03))

/-- R34, R230 (no read-back): the answer to a command other than a finalize depends on `macState` alone,
HFINAL's on `HE` alone, MFINAL's on `ME` alone. -/
def Obligations.ResponsesRevealOnlyDigestsAndMacState : Prop :=
  ∀ (i : Instr) (s1 s2 : State),
    (match i with
      | .hfinal => s1.HE = s2.HE
      | .mfinal => s1.ME = s2.ME
      | .hreset | .habsorb _ | .mreset | .mkey _ | .mabsorb _ => s1.ME.macState = s2.ME.macState) →
    ∃ t1 t2 r, exec i s1 = .next t1 ∧ exec i s2 = .next t2 ∧
      t1.resp = s1.resp ++ r ∧ t2.resp = s2.resp ++ r

/-- R24: `|pending| = byteCount mod 64` of both engines holds after RESET and is kept by every step, from
any state that has it, reachable or not. -/
def Obligations.EveryStepKeepsThePendingLength : Prop :=
  (State.reset.HE.pending.length = State.reset.HE.byteCount.toNat % 64 ∧
    State.reset.ME.inner.pending.length = State.reset.ME.inner.byteCount.toNat % 64) ∧
  ∀ s t : State, s.HE.pending.length = s.HE.byteCount.toNat % 64 →
    s.ME.inner.pending.length = s.ME.inner.byteCount.toNat % 64 → step s = .next t →
    t.HE.pending.length = t.HE.byteCount.toNat % 64 ∧
    t.ME.inner.pending.length = t.ME.inner.byteCount.toNat % 64

/-- R30 (spec-derived) with R24: the invariant of both engines is kept by every step: commands, refusals,
illegal headers, deliveries, RESET. -/
def Obligations.EveryStepKeepsTheInvariant : Prop :=
  ∀ s t : State, s.Inv → step s = .next t → t.Inv

/-- R30's starting point (spec-derived): the reset state of R35 meets the invariant. -/
def Obligations.ResetMeetsTheInvariant : Prop := State.reset.Inv

/-- R194's "Nothing else fails", with the model's choice that waiting and outside moves are steps too
(logs 3, 4, 9): every step answers a next state, and keeps the machine's parameter (log 1). -/
def Obligations.EveryStepAnswersAndKeepsThePolicy : Prop :=
  ∀ s : State, ∃ t, step s = .next t ∧ t.macPostFinal = s.macPostFinal

/-- R116 and the table of R238 (spec-derived): how many times each command invokes CompressionStep. -/
def Obligations.CompressionCountsAreAsTabulated : Prop :=
  ∀ (i : Instr) (s : State), s.Inv →
    commandCompressions i s =
      match i with
      | .hreset => 0
      | .mreset => 0
      | .habsorb data => (s.HE.pending.length + data.length) / 64
      | .hfinal => if s.HE.pending.length ≤ 55 then 1 else 2
      | .mabsorb data =>
        if s.ME.macState = .uninit then 0 else (s.ME.inner.pending.length + data.length) / 64
      | .mkey key =>
        if s.ME.macState = .uninit then
          if key.length ≤ 64 then 1
          else key.length / 64 + (if key.length % 64 ≤ 55 then 1 else 2) + 1
        else 0
      | .mfinal =>
        if s.ME.macState = .uninit then 0
        else (if s.ME.inner.pending.length ≤ 55 then 1 else 2) +
          (match s.macPostFinal with | .uninit => 2 | .keyset => 3)

/-! ### Values the spec prints -/

/-- The tables of R108 and R109, word by word, and their definition by roots of primes, whose first 32
fractional bits they are (general knowledge in the spec, G1 and G2; log 7). -/
def Obligations.ConstantTablesAreTheSpecs : Prop :=
  K =
    [0x428a2f98, 0x71374491, 0xb5c0fbcf, 0xe9b5dba5, 0x3956c25b, 0x59f111f1, 0x923f82a4, 0xab1c5ed5] ++
    [0xd807aa98, 0x12835b01, 0x243185be, 0x550c7dc3, 0x72be5d74, 0x80deb1fe, 0x9bdc06a7, 0xc19bf174] ++
    [0xe49b69c1, 0xefbe4786, 0x0fc19dc6, 0x240ca1cc, 0x2de92c6f, 0x4a7484aa, 0x5cb0a9dc, 0x76f988da] ++
    [0x983e5152, 0xa831c66d, 0xb00327c8, 0xbf597fc7, 0xc6e00bf3, 0xd5a79147, 0x06ca6351, 0x14292967] ++
    [0x27b70a85, 0x2e1b2138, 0x4d2c6dfc, 0x53380d13, 0x650a7354, 0x766a0abb, 0x81c2c92e, 0x92722c85] ++
    [0xa2bfe8a1, 0xa81a664b, 0xc24b8b70, 0xc76c51a3, 0xd192e819, 0xd6990624, 0xf40e3585, 0x106aa070] ++
    [0x19a4c116, 0x1e376c08, 0x2748774c, 0x34b0bcb5, 0x391c0cb3, 0x4ed8aa4a, 0x5b9cca4f, 0x682e6ff3] ++
    [0x748f82ee, 0x78a5636f, 0x84c87814, 0x8cc70208, 0x90befffa, 0xa4506ceb, 0xbef9a3f7, 0xc67178f2] ∧
  IV.toList =
    [0x6a09e667, 0xbb67ae85, 0x3c6ef372, 0xa54ff53a, 0x510e527f, 0x9b05688c, 0x1f83d9ab, 0x5be0cd19] ∧
  ∀ primes : List Nat, primes =
    [2, 3, 5, 7, 11, 13, 17, 19, 23, 29, 31, 37, 41, 43, 47, 53] ++
    [59, 61, 67, 71, 73, 79, 83, 89, 97, 101, 103, 107, 109, 113, 127, 131] ++
    [137, 139, 149, 151, 157, 163, 167, 173, 179, 181, 191, 193, 197, 199, 211, 223] ++
    [227, 229, 233, 239, 241, 251, 257, 263, 269, 271, 277, 281, 283, 293, 307, 311] →
    (∀ t, t < 64 → ∃ root : Nat, root ^ 3 ≤ primes.getD t 0 * 2 ^ 96 ∧
      primes.getD t 0 * 2 ^ 96 < (root + 1) ^ 3 ∧ (K.getD t 0).toNat = root % 2 ^ 32) ∧
    ∀ j, j < 8 → ∃ root : Nat, root ^ 2 ≤ primes.getD j 0 * 2 ^ 64 ∧
      primes.getD j 0 * 2 ^ 64 < (root + 1) ^ 2 ∧ (IV.toList.getD j 0).toNat = root % 2 ^ 32

/-- V1, V2 and V3, "the source's worked examples": `SHA256("")`, `SHA256("abc")`, and `HMAC("key", m)` of
"The quick brown fox jumps over the lazy dog". A wrong bit of either table changes one of them (R108,
R109). -/
def Obligations.WorkedExamplesComeOutAsPrinted : Prop :=
  sha256 [] =
    [0xe3, 0xb0, 0xc4, 0x42, 0x98, 0xfc, 0x1c, 0x14, 0x9a, 0xfb, 0xf4, 0xc8, 0x99, 0x6f, 0xb9, 0x24] ++
    [0x27, 0xae, 0x41, 0xe4, 0x64, 0x9b, 0x93, 0x4c, 0xa4, 0x95, 0x99, 0x1b, 0x78, 0x52, 0xb8, 0x55] ∧
  sha256 [0x61, 0x62, 0x63] =
    [0xba, 0x78, 0x16, 0xbf, 0x8f, 0x01, 0xcf, 0xea, 0x41, 0x41, 0x40, 0xde, 0x5d, 0xae, 0x22, 0x23] ++
    [0xb0, 0x03, 0x61, 0xa3, 0x96, 0x17, 0x7a, 0x9c, 0xb4, 0x10, 0xff, 0x61, 0xf2, 0x00, 0x15, 0xad] ∧
  hmac [0x6b, 0x65, 0x79]
    ([0x54, 0x68, 0x65, 0x20, 0x71, 0x75, 0x69, 0x63, 0x6b, 0x20, 0x62, 0x72, 0x6f, 0x77, 0x6e, 0x20] ++
     [0x66, 0x6f, 0x78, 0x20, 0x6a, 0x75, 0x6d, 0x70, 0x73, 0x20, 0x6f, 0x76, 0x65, 0x72, 0x20, 0x74] ++
     [0x68, 0x65, 0x20, 0x6c, 0x61, 0x7a, 0x79, 0x20, 0x64, 0x6f, 0x67]) =
    [0xf7, 0xbc, 0x83, 0xf4, 0x30, 0x53, 0x84, 0x24, 0xb1, 0x32, 0x98, 0xe6, 0xaa, 0x6f, 0xb1, 0x43] ++
    [0xef, 0x4d, 0x59, 0xa1, 0x49, 0x46, 0x17, 0x59, 0x97, 0x47, 0x9d, 0xbc, 0x2d, 0x1a, 0x3c, 0xd8]
end

