-- ==== Sys2Proof/Laws/Bytes.lean ====
section
/-! SUPPORT. Byte order and lengths: `be32` and `BE32` are inverse, and how many bytes each form has. -/

namespace Sys2Proof.Machine

@[simp] theorem BE32_length (w : Word) : (BE32 w).length = 4 := rfl

@[simp] theorem BE64_length (v : Count) : (BE64 v).length = 8 := rfl

/-- `be32` undoes `BE32` (`00_scope.md` R8). -/
theorem be32_extract (w : Word) :
    be32 (w.extractLsb' 24 8) (w.extractLsb' 16 8) (w.extractLsb' 8 8) (w.extractLsb' 0 8) = w := by
  apply BitVec.eq_of_getLsbD_eq
  intro i hi
  simp only [be32, BitVec.getLsbD_append, BitVec.getLsbD_extractLsb']
  split
  · simp [*]
  · split
    · have : 8 + (i - 8) = i := by omega
      simp [*]
    · split
      · have : 16 + (i - 8 - 8) = i := by omega
        simp [*]
      · have : 24 + (i - 8 - 8 - 8) = i := by omega
        have : i - 8 - 8 - 8 < 8 := by omega
        simp [*]

/-- `BE32` undoes `be32` (`00_scope.md` R8). -/
theorem BE32_be32 (a b c d : Byte) : BE32 (be32 a b c d) = [a, b, c, d] := by
  simp only [BE32, List.cons.injEq, and_true]
  refine ⟨?_, ?_, ?_, ?_⟩ <;>
  · apply BitVec.eq_of_getLsbD_eq
    intro i hi
    simp only [be32, BitVec.getLsbD_append, BitVec.getLsbD_extractLsb']
    have h1 : ¬ 24 + i < 8 := by omega
    have h2 : ¬ 16 + i < 8 := by omega
    have h3 : ¬ 8 + i < 8 := by omega
    have h4 : ¬ 24 + i - 8 < 8 := by omega
    have h5 : ¬ 16 + i - 8 < 8 := by omega
    have h6 : ¬ 24 + i - 8 - 8 < 8 := by omega
    have h7 : 24 + i - 8 - 8 - 8 = i := by omega
    have h8 : 16 + i - 8 - 8 = i := by omega
    have h9 : 8 + i - 8 = i := by omega
    simp [*]

@[simp] theorem HWords.toList_length (H : HWords) : H.toList.length = 8 := rfl

/-- "Output digest is always exactly 32 bytes" (`30_encoding.md` R80). -/
@[simp] theorem digest_length (H : HWords) : (digest H).length = 32 := rfl

@[simp] theorem padKey_length (x : Byte) (km : List Byte) : (padKey x km).length = 64 := by
  simp [padKey]

@[simp] theorem innerPad_length (km : List Byte) : (innerPad km).length = 64 := padKey_length _ km

@[simp] theorem outerPad_length (km : List Byte) : (outerPad km).length = 64 := padKey_length _ km

theorem pad_length (p : Nat) (L : Count) : (pad p L).length = 9 + zeroCount p := by
  simp [pad]; omega

/-- The padding brings a buffer of `p` bytes to a whole number of blocks (`41_hash_engine.md` R134). -/
theorem pad_fills (p : Nat) (L : Count) : (p + (pad p L).length) % 64 = 0 := by
  rw [pad_length, zeroCount]; omega

end Sys2Proof.Machine
end

