-- ==== Sys2Proof/Laws/Compression.lean ====
section
/-! SUPPORT. The schedule has 64 words. -/

namespace Sys2Proof.Machine

theorem K_length : K.length = 64 := rfl

theorem extendSchedule_length (n : Nat) (ws : List Word) :
    (extendSchedule n ws).length = n + ws.length := by
  induction n generalizing ws with
  | zero => simp [extendSchedule]
  | succ n ih => rw [extendSchedule, ih]; simp; omega

theorem extendSchedule_succ (n : Nat) (ws : List Word) :
    extendSchedule (n + 1) ws = nextWord (extendSchedule n ws) :: extendSchedule n ws := by
  induction n generalizing ws with
  | zero => rfl
  | succ n ih => rw [extendSchedule, ih]; rfl

theorem blockWords_length (block : List Byte) : (blockWords block).length = block.length / 4 := by
  induction block using blockWords.induct with
  | case1 a b c d rest ih => simp [blockWords, ih]; omega
  | case2 s h =>
    match s, h with
    | [], _ => rfl
    | [_], _ => simp [blockWords]
    | [_, _], _ => simp [blockWords]
    | [_, _, _], _ => simp [blockWords]
    | a :: b :: c :: d :: r, h => exact absurd rfl (h a b c d r)

theorem schedule_length {block : List Byte} (h : block.length = 64) : (schedule block).length = 64 := by
  simp [schedule, extendSchedule_length, blockWords_length, h]

end Sys2Proof.Machine
end

