-- ==== Sys2Proof/Laws/Decode.lean ====
section
/-! SUPPORT. What the decoder does with a length field and an operand, said once (`spec/30_encoding.md`
R75, R76). -/

namespace Sys2Proof

open Sys2Proof.Machine

/-- The length field of `d` is `|d|`, for an operand a frame can hold. -/
theorem lengthField_toNat {d : List Byte} (h : d.length < 2 ^ 32) :
    (BitVec.ofNat 32 d.length).toNat = d.length := by
  rw [BitVec.toNat_ofNat, Nat.mod_eq_of_lt h]

/-- A whole operand is read back, and the stream after it is left. -/
theorem decodeOperand_frame (cmd : List Byte → Instr) {d : List Byte} (h : d.length < 2 ^ 32)
    (r : List Byte) :
    decodeOperand cmd (BE32 (BitVec.ofNat 32 d.length) ++ (d ++ r)) = .frame (cmd d) r := by
  have hlen := lengthField_toNat h
  simp only [BE32, List.cons_append, List.nil_append, decodeOperand, be32_extract, hlen]
  rw [if_neg (by simp)]
  simp

/-- What a frame read by `decodeOperand` was made of. -/
theorem decodeOperand_inv {cmd : List Byte → Instr} {s r : List Byte} {i : Instr}
    (h : decodeOperand cmd s = .frame i r) :
    ∃ d : List Byte, d.length < 2 ^ 32 ∧ i = cmd d ∧
      s = BE32 (BitVec.ofNat 32 d.length) ++ (d ++ r) := by
  match s, h with
  | l0 :: l1 :: l2 :: l3 :: s, h =>
    simp only [decodeOperand] at h
    split at h
    · cases h
    · rename_i hle
      simp only [Decoded.frame.injEq] at h
      obtain ⟨rfl, rfl⟩ := h
      have hlt := (be32 l0 l1 l2 l3).isLt
      have htake : (s.take (be32 l0 l1 l2 l3).toNat).length = (be32 l0 l1 l2 l3).toNat := by
        rw [List.length_take]; omega
      refine ⟨_, by rw [htake]; exact hlt, rfl, ?_⟩
      rw [htake, BitVec.ofNat_toNat, BitVec.setWidth_eq, BE32_be32, List.take_append_drop]
      rfl

/-- No operand is ever an illegal header. -/
theorem decodeOperand_ne_illegal (cmd : List Byte → Instr) (s : List Byte) (h : Byte) (r : List Byte) :
    decodeOperand cmd s ≠ .illegal h r := by
  intro hs
  unfold decodeOperand at hs
  split at hs
  · simp only at hs; split at hs <;> cases hs
  · cases hs

/-- What a header byte makes of the stream: one of the seven commands of R77, or an illegal header. -/
theorem decode_cons (h : Byte) (s : List Byte) :
    (h = hdrHRESET ∧ decode (h :: s) = .frame .hreset s) ∨
    (h = hdrHFINAL ∧ decode (h :: s) = .frame .hfinal s) ∨
    (h = hdrMRESET ∧ decode (h :: s) = .frame .mreset s) ∨
    (h = hdrMFINAL ∧ decode (h :: s) = .frame .mfinal s) ∨
    (h = hdrHABSORB ∧ decode (h :: s) = decodeOperand .habsorb s) ∨
    (h = hdrMABSORB ∧ decode (h :: s) = decodeOperand .mabsorb s) ∨
    (h = hdrMKEY ∧ decode (h :: s) = decodeOperand .mkey s) ∨
    ((h ≠ hdrHRESET ∧ h ≠ hdrHFINAL ∧ h ≠ hdrMRESET ∧ h ≠ hdrMFINAL ∧
      h ≠ hdrHABSORB ∧ h ≠ hdrMABSORB ∧ h ≠ hdrMKEY) ∧ decode (h :: s) = .illegal h s) := by
  by_cases h1 : h = hdrHRESET
  · subst h1; exact .inl ⟨rfl, rfl⟩
  by_cases h2 : h = hdrHFINAL
  · subst h2; exact .inr (.inl ⟨rfl, rfl⟩)
  by_cases h3 : h = hdrMRESET
  · subst h3; exact .inr (.inr (.inl ⟨rfl, rfl⟩))
  by_cases h4 : h = hdrMFINAL
  · subst h4; exact .inr (.inr (.inr (.inl ⟨rfl, rfl⟩)))
  by_cases h5 : h = hdrHABSORB
  · subst h5; exact .inr (.inr (.inr (.inr (.inl ⟨rfl, rfl⟩))))
  by_cases h6 : h = hdrMABSORB
  · subst h6; exact .inr (.inr (.inr (.inr (.inr (.inl ⟨rfl, rfl⟩)))))
  by_cases h7 : h = hdrMKEY
  · subst h7; exact .inr (.inr (.inr (.inr (.inr (.inr (.inl ⟨rfl, rfl⟩))))))
  refine .inr (.inr (.inr (.inr (.inr (.inr (.inr ⟨⟨h1, h2, h3, h4, h5, h6, h7⟩, ?_⟩))))))
  simp only [decode, cmdN, cmdB, if_neg h1, if_neg h2, if_neg h3, if_neg h4, if_neg h5, if_neg h6,
    if_neg h7]

/-- `be32` as the sum of `20_memory.md` R50. -/
theorem be32_toNat (a b c d : Byte) :
    (be32 a b c d).toNat = a.toNat * 2 ^ 24 + b.toNat * 2 ^ 16 + c.toNat * 2 ^ 8 + d.toNat := by
  have hb := b.isLt
  have hc := c.isLt
  have hd := d.isLt
  simp only [be32, BitVec.toNat_append]
  rw [← Nat.shiftLeft_add_eq_or_of_lt hb, ← Nat.shiftLeft_add_eq_or_of_lt hc,
    ← Nat.shiftLeft_add_eq_or_of_lt hd]
  simp only [Nat.shiftLeft_eq]
  omega

end Sys2Proof
end

