-- ==== Sys2Proof/Laws/State.lean ====
section
/-! SUPPORT. One lemma per field per update of State, and the fields of the small records the meanings
build; all true by rfl. -/

namespace Sys2Proof.Machine

variable (s : State)

@[simp] theorem State.setHE_HE (E : HashState) : (s.setHE E).HE = E := rfl
@[simp] theorem State.setHE_ME (E : HashState) : (s.setHE E).ME = s.ME := rfl
@[simp] theorem State.setHE_macPostFinal (E : HashState) : (s.setHE E).macPostFinal = s.macPostFinal := rfl
@[simp] theorem State.setHE_cmd (E : HashState) : (s.setHE E).cmd = s.cmd := rfl
@[simp] theorem State.setHE_resp (E : HashState) : (s.setHE E).resp = s.resp := rfl
@[simp] theorem State.setHE_schedule (E : HashState) : (s.setHE E).schedule = s.schedule := rfl

@[simp] theorem State.setME_HE (M : MacState) : (s.setME M).HE = s.HE := rfl
@[simp] theorem State.setME_ME (M : MacState) : (s.setME M).ME = M := rfl
@[simp] theorem State.setME_macPostFinal (M : MacState) : (s.setME M).macPostFinal = s.macPostFinal := rfl
@[simp] theorem State.setME_cmd (M : MacState) : (s.setME M).cmd = s.cmd := rfl
@[simp] theorem State.setME_resp (M : MacState) : (s.setME M).resp = s.resp := rfl
@[simp] theorem State.setME_schedule (M : MacState) : (s.setME M).schedule = s.schedule := rfl

@[simp] theorem State.respond_HE (r : Response) : (s.respond r).HE = s.HE := rfl
@[simp] theorem State.respond_ME (r : Response) : (s.respond r).ME = s.ME := rfl
@[simp] theorem State.respond_macPostFinal (r : Response) : (s.respond r).macPostFinal = s.macPostFinal := rfl
@[simp] theorem State.respond_cmd (r : Response) : (s.respond r).cmd = s.cmd := rfl
@[simp] theorem State.respond_resp (r : Response) : (s.respond r).resp = s.resp ++ r.bytes := rfl
@[simp] theorem State.respond_schedule (r : Response) : (s.respond r).schedule = s.schedule := rfl

@[simp] theorem State.raise_HE (e : Err) : (s.raise e).HE = s.HE := rfl
@[simp] theorem State.raise_ME (e : Err) : (s.raise e).ME = s.ME := rfl
@[simp] theorem State.raise_macPostFinal (e : Err) : (s.raise e).macPostFinal = s.macPostFinal := rfl
@[simp] theorem State.raise_cmd (e : Err) : (s.raise e).cmd = s.cmd := rfl
@[simp] theorem State.raise_resp (e : Err) : (s.raise e).resp = s.resp ++ [e.code] := rfl
@[simp] theorem State.raise_schedule (e : Err) : (s.raise e).schedule = s.schedule := rfl

@[simp] theorem State.setCmd_HE (rest : List Byte) : (s.setCmd rest).HE = s.HE := rfl
@[simp] theorem State.setCmd_ME (rest : List Byte) : (s.setCmd rest).ME = s.ME := rfl
@[simp] theorem State.setCmd_macPostFinal (rest : List Byte) : (s.setCmd rest).macPostFinal = s.macPostFinal := rfl
@[simp] theorem State.setCmd_cmd (rest : List Byte) : (s.setCmd rest).cmd = rest := rfl
@[simp] theorem State.setCmd_resp (rest : List Byte) : (s.setCmd rest).resp = s.resp := rfl
@[simp] theorem State.setCmd_schedule (rest : List Byte) : (s.setCmd rest).schedule = s.schedule := rfl

@[simp] theorem State.hardReset_HE : (s.hardReset).HE = .reset := rfl
@[simp] theorem State.hardReset_ME : (s.hardReset).ME = .reset := rfl
@[simp] theorem State.hardReset_macPostFinal : (s.hardReset).macPostFinal = s.macPostFinal := rfl
@[simp] theorem State.hardReset_cmd : (s.hardReset).cmd = [] := rfl
@[simp] theorem State.hardReset_resp : (s.hardReset).resp = [] := rfl
@[simp] theorem State.hardReset_schedule : (s.hardReset).schedule = s.schedule := rfl

@[simp] theorem HashState.reset_H : HashState.reset.H = IV := rfl
@[simp] theorem HashState.reset_byteCount : HashState.reset.byteCount = 0 := rfl
@[simp] theorem HashState.reset_pending : HashState.reset.pending = [] := rfl

@[simp] theorem MacState.reset_inner : MacState.reset.inner = .reset := rfl
@[simp] theorem MacState.reset_macState : MacState.reset.macState = .uninit := rfl
@[simp] theorem MacState.reset_keyMaterial : MacState.reset.keyMaterial = [] := rfl

@[simp] theorem startMessage_inner (E : HashState) (km : List Byte) :
    (startMessage E km).inner = absorb E (innerPad km) := rfl
@[simp] theorem startMessage_macState (E : HashState) (km : List Byte) :
    (startMessage E km).macState = .keyset := rfl
@[simp] theorem startMessage_keyMaterial (E : HashState) (km : List Byte) :
    (startMessage E km).keyMaterial = km := rfl

@[simp] theorem resetHash_eq (E : HashState) : resetHash E = .reset := rfl
@[simp] theorem finalize_snd (E : HashState) : (finalize E).2 = .reset := rfl
theorem finalize_fst (E : HashState) : (finalize E).1 = digest (padded E).H := rfl

@[simp] theorem Response.ok_bytes : Response.ok.bytes = [0x00] := rfl
@[simp] theorem Response.digest_bytes (d : List Byte) : (Response.digest d).bytes = 0x00 :: d := rfl
@[simp] theorem Response.error_bytes (e : Err) : (Response.error e).bytes = [e.code] := rfl

end Sys2Proof.Machine
end

