-- ==== Sys2Proof/Laws/Engine.lean ====
section
/-! SUPPORT. What pushing, absorbing and finalizing do to a HashEngine, said once: by whole blocks
(`spec/41_hash_engine.md` R133 "Equivalently", R134, R139). -/

namespace Sys2Proof.Machine

/-! ### Blocks -/

theorem compressBlocks_add (m n : Nat) (S : HWords) (P : List Byte) :
    compressBlocks (m + n) S P = compressBlocks n (compressBlocks m S P) (P.drop (64 * m)) := by
  induction m generalizing S P with
  | zero => simp [compressBlocks]
  | succ m ih =>
    rw [Nat.succ_add, compressBlocks, ih, compressBlocks, List.drop_drop]
    congr 2; omega

/-- Blocks are cut from the front: what follows them does not matter. -/
theorem compressBlocks_append {n : Nat} {P : List Byte} (h : 64 * n ≤ P.length) (S : HWords)
    (Q : List Byte) : compressBlocks n S (P ++ Q) = compressBlocks n S P := by
  induction n generalizing S P with
  | zero => rfl
  | succ n ih =>
    have h64 : 64 ≤ P.length := by omega
    rw [compressBlocks, compressBlocks, List.take_append_of_le_length h64,
      List.drop_append_of_le_length h64, ih (by simp; omega)]

/-! ### Pushing bytes -/

@[simp] theorem pushByte_byteCount (E : HashState) (b : Byte) :
    (pushByte E b).byteCount = E.byteCount := by
  simp only [pushByte]; split <;> rfl

theorem pushAll_byteCount (E : HashState) (bs : List Byte) :
    (bs.foldl pushByte E).byteCount = E.byteCount := by
  induction bs generalizing E with
  | nil => rfl
  | cons b bs ih => rw [List.foldl_cons, ih, pushByte_byteCount]

theorem pushByte_pending (E : HashState) (b : Byte) :
    (pushByte E b).pending = if E.pending.length + 1 = 64 then [] else E.pending ++ [b] := by
  simp only [pushByte, List.length_append, List.length_singleton]; split <;> rfl

/-- Everything pushing does: with `s = pending ‖ bs`, the `|s| / 64` whole blocks of `s` are compressed in
order and the rest of `s` is pending. -/
theorem pushAll_eq {E : HashState} (h : E.pending.length < 64) (bs : List Byte) :
    bs.foldl pushByte E =
      { E with
        H := compressBlocks ((E.pending ++ bs).length / 64) E.H (E.pending ++ bs)
        pending := (E.pending ++ bs).drop (64 * ((E.pending ++ bs).length / 64)) } := by
  induction bs generalizing E with
  | nil =>
    have : (E.pending ++ ([] : List Byte)).length / 64 = 0 := by simp; omega
    rw [this]; simp [compressBlocks]
  | cons b bs ih =>
    have hassoc : E.pending ++ b :: bs = (E.pending ++ [b]) ++ bs := by simp
    rw [List.foldl_cons]
    by_cases h64 : E.pending.length + 1 = 64
    · have hp : pushByte E b = { E with H := compress E.H (E.pending ++ [b]), pending := [] } := by
        simp [pushByte, h64]
      have hlen : (E.pending ++ [b]).length = 64 := by simp [h64]
      have hdiv : ((E.pending ++ [b]) ++ bs).length / 64 = 1 + bs.length / 64 := by
        rw [List.length_append, hlen]; omega
      rw [hp, ih (by simp), hassoc, hdiv]
      simp only [List.nil_append]
      rw [compressBlocks_add]
      have htake : ((E.pending ++ [b]) ++ bs).take 64 = E.pending ++ [b] := by
        rw [List.take_append_of_le_length (by omega), List.take_of_length_le (by omega)]
      have hdrop : ((E.pending ++ [b]) ++ bs).drop 64 = bs := by
        rw [List.drop_append_of_le_length (by omega), List.drop_of_length_le (by omega)]; rfl
      have h2 : 64 * (1 + bs.length / 64) = 64 + 64 * (bs.length / 64) := by omega
      rw [h2, ← List.drop_drop, Nat.mul_one, hdrop]
      simp only [compressBlocks, htake]
    · have hp : pushByte E b = { E with pending := E.pending ++ [b] } := by
        simp [pushByte, h64]
      rw [hp, ih (by simp; omega), hassoc]

/-! ### Absorbing -/

@[simp] theorem absorb_nil (E : HashState) : absorb E [] = E := rfl

theorem absorb_cons (E : HashState) (b : Byte) (bs : List Byte) :
    absorb E (b :: bs) = absorb (absorbByte E b) bs := rfl

/-- `Absorb` "is a left fold of `AbsorbByte` over the operand" (R139). -/
theorem absorb_append (E : HashState) (x y : List Byte) :
    absorb E (x ++ y) = absorb (absorb E x) y := List.foldl_append

theorem absorb_flatten (E : HashState) (cs : List (List Byte)) :
    cs.foldl absorb E = absorb E cs.flatten := by
  induction cs generalizing E with
  | nil => rfl
  | cons c cs ih => rw [List.foldl_cons, ih, List.flatten_cons, absorb_append]

/-- Absorbing is pushing, and counting every byte (R132, `10_state.md` R22). -/
theorem absorb_eq_push (E : HashState) (data : List Byte) :
    absorb E data =
      { data.foldl pushByte E with byteCount := E.byteCount + BitVec.ofNat 64 data.length } := by
  have push_count : ∀ (F : HashState) (n : Count) (b : Byte),
      pushByte { F with byteCount := n } b = { pushByte F b with byteCount := n } := by
    intro F n b; simp only [pushByte]; split <;> rfl
  have fold_count : ∀ (bs : List Byte) (F : HashState) (n : Count),
      bs.foldl pushByte { F with byteCount := n } = { bs.foldl pushByte F with byteCount := n } := by
    intro bs
    induction bs with
    | nil => intro F n; rfl
    | cons b bs ih => intro F n; rw [List.foldl_cons, push_count, ih]; rfl
  induction data generalizing E with
  | nil => simp
  | cons b bs ih =>
    have step : absorbByte E b = { pushByte E b with byteCount := E.byteCount + 1 } := by
      simp [absorbByte]
    rw [absorb_cons, ih, List.foldl_cons, step, fold_count]
    have count : E.byteCount + 1 + BitVec.ofNat 64 bs.length =
        E.byteCount + BitVec.ofNat 64 (b :: bs).length := by
      rw [List.length_cons, Nat.add_comm bs.length, BitVec.ofNat_add, BitVec.add_assoc]; rfl
    rw [← count]

/-- Everything absorbing does (R133 "Equivalently"). -/
theorem absorb_eq {E : HashState} (h : E.pending.length < 64) (data : List Byte) :
    absorb E data =
      { H := compressBlocks ((E.pending ++ data).length / 64) E.H (E.pending ++ data)
        byteCount := E.byteCount + BitVec.ofNat 64 data.length
        pending := (E.pending ++ data).drop (64 * ((E.pending ++ data).length / 64)) } := by
  rw [absorb_eq_push, pushAll_eq h]

theorem HashState.Fill.pending_lt {E : HashState} (h : E.Fill) : E.pending.length < 64 := by
  unfold HashState.Fill at h; omega

@[simp] theorem HashState.reset_fill : HashState.reset.Fill := rfl

/-- Absorbing keeps R24. -/
theorem absorb_fill {E : HashState} (h : E.Fill) (data : List Byte) : (absorb E data).Fill := by
  have hlt := h.pending_lt
  unfold HashState.Fill at *
  rw [absorb_eq hlt]
  simp only [List.length_drop, List.length_append, BitVec.toNat_add, BitVec.toNat_ofNat]
  omega

/-- A HashEngine that absorbed `m` from reset. -/
theorem absorb_reset (m : List Byte) :
    absorb .reset m =
      { H := compressBlocks (m.length / 64) IV m
        byteCount := BitVec.ofNat 64 m.length
        pending := m.drop (64 * (m.length / 64)) } := by
  rw [absorb_eq (by simp)]; simp

@[simp] theorem HashState.HoldsMessage.absorb {E : HashState} (h : E.HoldsMessage) (data : List Byte) :
    (absorb E data).HoldsMessage := by
  obtain ⟨m, rfl⟩ := h
  exact ⟨m ++ data, (absorb_append ..).symm⟩

@[simp] theorem HashState.reset_holdsMessage : HashState.reset.HoldsMessage := ⟨[], rfl⟩

/-! ### Finalizing -/

/-- Everything finalizing computes: the digest of the blocks of `pending ‖ Pad` (R134, R135). -/
theorem finalize_eq {E : HashState} (h : E.pending.length < 64) :
    (finalize E).1 =
      digest (compressBlocks
        ((E.pending ++ pad E.pending.length (lengthBits E)).length / 64) E.H
        (E.pending ++ pad E.pending.length (lengthBits E))) := by
  rw [finalize_fst, padded, pushAll_eq h]

@[simp] theorem finalize_fst_length (E : HashState) : (finalize E).1.length = 32 := rfl

end Sys2Proof.Machine
end

