-- ==== Sys2Proof/Laws/Exec.lean ====
section
/-! SUPPORT. What `exec` answers, command by command, said once; provers cite these instead of unfolding
the meanings. -/

namespace Sys2Proof.Machine

theorem exec_hreset (s : State) : exec .hreset s = .next ((s.setHE .reset).respond .ok) := rfl

theorem exec_habsorb (data : List Byte) (s : State) :
    exec (.habsorb data) s = .next ((s.setHE (absorb s.HE data)).respond .ok) := rfl

theorem exec_hfinal (s : State) :
    exec .hfinal s = .next ((s.setHE .reset).respond (.digest (finalize s.HE).1)) := rfl

theorem exec_mreset (s : State) : exec .mreset s = .next ((s.setME .reset).respond .ok) := rfl

theorem exec_mkey_refused {s : State} (h : s.ME.macState ≠ .uninit) (key : List Byte) :
    exec (.mkey key) s = .next (s.raise .keyAlreadySet) := if_pos h

theorem exec_mkey {s : State} (h : s.ME.macState = .uninit) (key : List Byte) :
    exec (.mkey key) s = .next ((s.setME
      (startMessage (processKey s.ME.inner key).2 (processKey s.ME.inner key).1)).respond .ok) :=
  if_neg (not_not_intro h)

theorem exec_mabsorb_refused {s : State} (h : s.ME.macState = .uninit) (data : List Byte) :
    exec (.mabsorb data) s = .next (s.raise .uninitializedKey) := if_pos h

theorem exec_mabsorb {s : State} (h : s.ME.macState ≠ .uninit) (data : List Byte) :
    exec (.mabsorb data) s = .next ((s.setME
      { s.ME with inner := absorb s.ME.inner data, macState := .absorbing }).respond .ok) := if_neg h

theorem exec_mfinal_refused {s : State} (h : s.ME.macState = .uninit) :
    exec .mfinal s = .next (s.raise .uninitializedKey) := if_pos h

/-- The outer pass starts from the reset state, whatever the inner engine held (`42_mac_engine.md`
R173). -/
theorem exec_mfinal {s : State} (h : s.ME.macState ≠ .uninit) :
    exec .mfinal s = .next ((s.setME (afterFinal s.macPostFinal .reset s.ME.keyMaterial)).respond
      (.digest (finalize (absorb .reset
        (outerPad s.ME.keyMaterial ++ (finalize s.ME.inner).1))).1)) := by
  simp only [exec, execMfinal, if_neg h, absorb_append, finalize, resetHash_eq]

/-- A key of at most 64 bytes is used as it is (`42_mac_engine.md` R163). -/
theorem processKey_short {key : List Byte} (h : key.length ≤ 64) (E : HashState) :
    processKey E key = (key, E) := if_neg (by omega)

/-- A longer key becomes its digest, and the engine is reset (`42_mac_engine.md` R163, R164). -/
theorem processKey_long {key : List Byte} (h : 64 < key.length) (E : HashState) :
    processKey E key = ((finalize (absorb E key)).1, .reset) := if_pos h

/-- Everything a command can do. -/
theorem exec_inv {i : Instr} {s t : State} (h : exec i s = .next t) :
    (i = .hreset ∧ t = (s.setHE .reset).respond .ok) ∨
    (∃ data, i = .habsorb data ∧ t = (s.setHE (absorb s.HE data)).respond .ok) ∨
    (i = .hfinal ∧ t = (s.setHE .reset).respond (.digest (finalize s.HE).1)) ∨
    (i = .mreset ∧ t = (s.setME .reset).respond .ok) ∨
    (∃ key, i = .mkey key ∧ s.ME.macState ≠ .uninit ∧ t = s.raise .keyAlreadySet) ∨
    (∃ key, i = .mkey key ∧ s.ME.macState = .uninit ∧
      t = (s.setME (startMessage (processKey s.ME.inner key).2
        (processKey s.ME.inner key).1)).respond .ok) ∨
    (∃ data, i = .mabsorb data ∧ s.ME.macState = .uninit ∧ t = s.raise .uninitializedKey) ∨
    (∃ data, i = .mabsorb data ∧ s.ME.macState ≠ .uninit ∧
      t = (s.setME { s.ME with inner := absorb s.ME.inner data, macState := .absorbing }).respond .ok) ∨
    (i = .mfinal ∧ s.ME.macState = .uninit ∧ t = s.raise .uninitializedKey) ∨
    (i = .mfinal ∧ s.ME.macState ≠ .uninit ∧
      t = (s.setME (afterFinal s.macPostFinal .reset s.ME.keyMaterial)).respond
        (.digest (finalize (absorb .reset
          (outerPad s.ME.keyMaterial ++ (finalize s.ME.inner).1))).1)) := by
  cases i with
  | hreset => simp_all [exec_hreset]
  | habsorb data => simp_all [exec_habsorb]
  | hfinal => simp_all [exec_hfinal]
  | mreset => simp_all [exec_mreset]
  | mkey key =>
    by_cases hk : s.ME.macState = .uninit
    · rw [exec_mkey hk] at h; simp_all
    · rw [exec_mkey_refused hk] at h; simp_all
  | mabsorb data =>
    by_cases hk : s.ME.macState = .uninit
    · rw [exec_mabsorb_refused hk] at h; simp_all
    · rw [exec_mabsorb hk] at h; simp_all
  | mfinal =>
    by_cases hk : s.ME.macState = .uninit
    · rw [exec_mfinal_refused hk] at h; simp_all
    · rw [exec_mfinal hk] at h; simp_all

end Sys2Proof.Machine
end

