-- ==== Sys2Proof/Laws/PerInstr.lean ====
section
/-! SUPPORT. Facts about each command as syntax, one lemma per constructor. -/

namespace Sys2Proof.Laws

open Sys2Proof.Machine

theorem encodeB_length (h : Byte) (d : List Byte) : (encodeB h d).length = 5 + d.length := by
  simp [encodeB]; omega

namespace FrameLength

/-- The frame begins with the command's header and has the length of `30_encoding.md` R77's table
(for an operand of 2^32 bytes or more: of the model's own encoding, log 18). -/
def Statement (i : Instr) : Prop := (encode i).head? = some i.header ∧ (encode i).length = i.frameLength

theorem hreset : Statement .hreset := ⟨rfl, rfl⟩
theorem habsorb (data : List Byte) : Statement (.habsorb data) := ⟨rfl, encodeB_length _ data⟩
theorem hfinal : Statement .hfinal := ⟨rfl, rfl⟩
theorem mreset : Statement .mreset := ⟨rfl, rfl⟩
theorem mkey (key : List Byte) : Statement (.mkey key) := ⟨rfl, encodeB_length _ key⟩
theorem mabsorb (data : List Byte) : Statement (.mabsorb data) := ⟨rfl, encodeB_length _ data⟩
theorem mfinal : Statement .mfinal := ⟨rfl, rfl⟩

end FrameLength

end Sys2Proof.Laws
end

