-- ==== Sys2Proof/Laws/Run.lean ====
section
/-! SUPPORT. Steps and runs: what a turn of the engine and an outside move do, said once. -/

namespace Sys2Proof.Machine

/-- The engine's turn on a whole frame. -/
theorem engineTurn_frame {s : State} {i : Instr} {rest : List Byte} (h : decode s.cmd = .frame i rest) :
    engineTurn s = exec i (s.setCmd rest) := by
  rw [engineTurn, h]

/-- The engine's turn on an illegal header. -/
theorem engineTurn_illegal {s : State} {b : Byte} {rest : List Byte}
    (h : decode s.cmd = .illegal b rest) :
    engineTurn s = .next ((s.setCmd rest).raise .illegalCommand) := by
  rw [engineTurn, h]

/-- The engine's turn while no frame is whole (log 4). -/
theorem engineTurn_waits {s : State} (h : decode s.cmd = .incomplete) : engineTurn s = .next s := by
  rw [engineTurn, h]

theorem step_engine {s : State} (h : s.schedule = []) : step s = engineTurn s := by
  rw [step, nextMove, h]

theorem step_move {s : State} {m : Move} {later : List Move} (h : s.schedule = m :: later) :
    step s = takeMove m { s with schedule := later } := by
  rw [step, nextMove, h]

/-- A step in the engine's turn, in both forms of it. -/
theorem step_of_enginesTurn {s : State} (h : s.EnginesTurn) :
    step s = engineTurn { s with schedule := s.schedule.tail } := by
  rw [step, nextMove]
  cases hs : s.schedule with
  | nil =>
    show engineTurn s = engineTurn { s with schedule := [] }
    rw [← hs]
  | cons m later =>
    obtain rfl : m = .engine := by simpa [State.EnginesTurn, hs] using h
    rfl

theorem takeMove_engine (s : State) : takeMove .engine s = engineTurn s := rfl

theorem takeMove_deliver (bytes : List Byte) (s : State) :
    takeMove (.deliver bytes) s = .next { s with cmd := s.cmd ++ bytes } := rfl

theorem takeMove_read (n : Nat) (s : State) :
    takeMove (.read n) s = .next { s with resp := s.resp.drop n } := rfl

theorem takeMove_reset (s : State) : takeMove .reset s = .next s.hardReset := rfl

theorem run_zero (s : State) : Host.Core.run Sys2Proof.core 0 s = .next s := rfl

/-- One step of a run. -/
theorem run_succ {s t : State} (h : step s = .next t) (n : Nat) :
    Host.Core.run Sys2Proof.core (n + 1) s = Host.Core.run Sys2Proof.core n t := by
  have h : Sys2Proof.core.step s = .next t := h
  simp only [Host.Core.run, h]

/-- A run of one step. -/
theorem run_one (s : State) : Host.Core.run Sys2Proof.core 1 s = step s := by
  generalize h : step s = o
  have h : Sys2Proof.core.step s = o := h
  cases o <;> simp only [Host.Core.run, h] <;> rfl

end Sys2Proof.Machine
end

