-- ==== Sys2Proof/Tests/Slice0.lean ====
section
/-! SUPPORT. The model's own tests, their expected values taken from `spec/95_test_vectors.md` (V and P
numbers) or written out from the rule named, and one witness for the hypotheses of every statement. -/

namespace Sys2Proof.Tests

open Sys2Proof Sys2Proof.Machine

/-! ### Small states -/

/-- The state a step goes on to. -/
def after (o : Host.Outcome State Fault Refusal) : Option State :=
  match o with
  | .next t => some t
  | .fault _ | .refused _ => none

/-- `n` bytes `"a"`, as in V30. -/
def as (n : Nat) : List Byte := List.replicate n 0x61

/-- An engine that has `p` pending and has compressed no block. -/
def pendingEngine (p : List Byte) : HashState := { HashState.reset with
  byteCount := BitVec.ofNat 64 p.length, pending := p }

/-- Reset, with this standalone engine. -/
def withHE (E : HashState) : State := { State.reset with HE := E }

/-- Reset, with this MacEngine. -/
def withME (M : MacState) : State := { State.reset with ME := M }

/-- Reset, with these bytes on the command stream. -/
def withCmd (bytes : List Byte) : State := { State.reset with cmd := bytes }

/-- `"The quick brown fox jumps over the lazy dog"` (V50). -/
def fox : List Byte :=
  [0x54, 0x68, 0x65, 0x20, 0x71, 0x75, 0x69, 0x63, 0x6b, 0x20, 0x62, 0x72, 0x6f, 0x77, 0x6e, 0x20] ++
  [0x66, 0x6f, 0x78, 0x20, 0x6a, 0x75, 0x6d, 0x70, 0x73, 0x20, 0x6f, 0x76, 0x65, 0x72, 0x20, 0x74] ++
  [0x68, 0x65, 0x20, 0x6c, 0x61, 0x7a, 0x79, 0x20, 0x64, 0x6f, 0x67]

/-- `inner.H` after MKEY `"key"` (V50). -/
def keyedH : HWords where
  h0 := 0xce6cc13a
  h1 := 0x481ee179
  h2 := 0x741ff12a
  h3 := 0x377e06dd
  h4 := 0xa6103e89
  h5 := 0x64a89364
  h6 := 0x6c03368b
  h7 := 0x82dceb35

/-- MacEngine after MKEY `"key"` (V50). -/
def keyed : MacState where
  inner := { H := keyedH, byteCount := 64, pending := [] }
  macState := .keyset
  keyMaterial := [0x6b, 0x65, 0x79]

/-- MacEngine after MKEY `"key"` and MABSORB of the fox message (V50). -/
def foxed : MacState where
  inner := { H := keyedH, byteCount := 107, pending := fox }
  macState := .absorbing
  keyMaterial := [0x6b, 0x65, 0x79]

/-- `"abc"`'s padded block (V20). -/
def blockABC : List Byte := [0x61, 0x62, 0x63, 0x80] ++ List.replicate 59 0 ++ [0x18]

/-- The digest of `"abc"` (V2). -/
def digestABC : List Byte :=
  [0xba, 0x78, 0x16, 0xbf, 0x8f, 0x01, 0xcf, 0xea, 0x41, 0x41, 0x40, 0xde, 0x5d, 0xae, 0x22, 0x23] ++
  [0xb0, 0x03, 0x61, 0xa3, 0x96, 0x17, 0x7a, 0x9c, 0xb4, 0x10, 0xff, 0x61, 0xf2, 0x00, 0x15, 0xad]

/-- The MAC of the fox message under `"key"` (V3). -/
def macFox : List Byte :=
  [0xf7, 0xbc, 0x83, 0xf4, 0x30, 0x53, 0x84, 0x24, 0xb1, 0x32, 0x98, 0xe6, 0xaa, 0x6f, 0xb1, 0x43] ++
  [0xef, 0x4d, 0x59, 0xa1, 0x49, 0x46, 0x17, 0x59, 0x97, 0x47, 0x9d, 0xbc, 0x2d, 0x1a, 0x3c, 0xd8]

/-! ### WellFormed: each check refuses an ill-formed term (R70) -/

/-- A command is well-formed exactly when its operand is short enough. -/
theorem wf_of_length (i : Instr) (n : Nat) (h : i.operand = List.replicate n 0) :
    i.WellFormed ↔ n < 2 ^ 32 := by
  rw [Instr.WellFormed, h, List.length_replicate]

theorem test_wf_refuses_long_habsorb : ¬ (Instr.habsorb (List.replicate (2 ^ 32) 0)).WellFormed :=
  fun h => Nat.lt_irrefl _ ((wf_of_length _ _ rfl).mp h)

theorem test_wf_refuses_long_mkey : ¬ (Instr.mkey (List.replicate (2 ^ 32) 0)).WellFormed :=
  fun h => Nat.lt_irrefl _ ((wf_of_length _ _ rfl).mp h)

theorem test_wf_refuses_long_mabsorb : ¬ (Instr.mabsorb (List.replicate (2 ^ 32) 0)).WellFormed :=
  fun h => Nat.lt_irrefl _ ((wf_of_length _ _ rfl).mp h)

theorem test_wf_accepts_the_longest : (Instr.mkey (List.replicate (2 ^ 32 - 1) 0)).WellFormed :=
  (wf_of_length _ _ rfl).mpr (by norm_num)

/-! ### Decoding: words written out from R72 to R77 (V70, V71) -/

theorem test_decode_hreset : decode [0b00000001] = .frame .hreset [] := by decide

theorem test_decode_habsorb :
    decode [0b00000010, 0, 0, 0, 0b00000011, 0b01100001, 0b01100010, 0b01100011, 0b00000011] =
      .frame (.habsorb [0x61, 0x62, 0x63]) [0x03] := by decide

theorem test_decode_hfinal : decode [0b00000011, 0b00000011] = .frame .hfinal [0x03] := by decide

theorem test_decode_mreset : decode [0b00010001] = .frame .mreset [] := by decide

theorem test_decode_mkey :
    decode [0b00010100, 0, 0, 0, 0b00000011, 0b01101011, 0b01100101, 0b01111001] =
      .frame (.mkey [0x6b, 0x65, 0x79]) [] := by decide

theorem test_decode_mabsorb :
    decode ([0b00010010, 0, 0, 0, 0b00101011] ++ fox) = .frame (.mabsorb fox) [] := by decide

theorem test_decode_mfinal : decode [0b00010011] = .frame .mfinal [] := by decide

/-- V71: a length field or an operand one byte short. -/
theorem test_decode_incomplete :
    decode [0x02, 0, 0, 0] = .incomplete ∧ decode [0x02, 0, 0, 0, 3, 0x61, 0x62] = .incomplete := by
  decide

/-- V71: `LEN` is big-endian (V70: 0x000f4240 is a million), and operand bytes that look like headers are
data. -/
theorem test_decode_length_and_data :
    decode [0x02, 0x00, 0x0f, 0x42, 0x40] = .incomplete ∧
    decode [0x02, 0, 0, 0, 2, 0x01, 0x03] = .frame (.habsorb [0x01, 0x03]) [] := by decide

/-- V71: the illegal headers it lists; only the one byte is consumed. -/
theorem test_decode_illegal :
    (∀ h ∈ ([0x00, 0x10, 0x15, 0x16, 0x17, 0x21, 0x81, 0x0a, 0xff] : List Byte),
      decode [h] = .illegal h []) ∧
    decode [0x04, 0, 0, 0, 3, 0x6b, 0x65, 0x79] = .illegal 0x04 [0, 0, 0, 3, 0x6b, 0x65, 0x79] := by
  decide

/-- V70. -/
theorem test_encode :
    encode (.habsorb []) = [0x02, 0, 0, 0, 0] ∧
    encode (.mkey [0x6b, 0x65, 0x79]) = [0x14, 0, 0, 0, 3, 0x6b, 0x65, 0x79] ∧
    encode (.habsorb (as 64)) = [0x02, 0, 0, 0, 0x40] ++ as 64 := by decide

/-- The opcode table's words: a row's one byte alone, and a frame with a length and an operand. -/
theorem test_decodeTableWord :
    decodeTableWord 8 0x01 = some .hreset ∧ decodeTableWord 8 0x02 = some (.habsorb []) ∧
    decodeTableWord 8 0x03 = some .hfinal ∧ decodeTableWord 8 0x11 = some .mreset ∧
    decodeTableWord 8 0x12 = some (.mabsorb []) ∧ decodeTableWord 8 0x13 = some .mfinal ∧
    decodeTableWord 8 0x14 = some (.mkey []) ∧ decodeTableWord 8 0x15 = none ∧
    decodeTableWord 48 0x610100000014 = some (.mkey [0x61]) := by decide

/-! ### CompressionStep (V10 to V23) -/

/-- V10, two rows. -/
theorem test_sigmas :
    [sigma0 0x61626380, sigma1 0x61626380, bigSigma0 0x61626380, bigSigma1 0x61626380] =
      [0x940e90ef, 0x7da86405, 0x8dd59276, 0xc0b865f2] ∧
    [sigma0 0x80000000, sigma1 0x80000000, bigSigma0 0x80000000, bigSigma1 0x80000000] =
      [0x11002000, 0x00205000, 0x20040200, 0x02100040] := by decide

/-- V11, three rows. -/
theorem test_choice_and_majority :
    (Ch 0x510e527f 0x9b05688c 0x1f83d9ab, Maj 0x6a09e667 0xbb67ae85 0x3c6ef372) =
      (0x1f85c98c, 0x3a6fe667) ∧
    Ch 0xf0f0f0f0 0xcccccccc 0xaaaaaaaa = 0xcacacaca ∧
    Maj 0xf0f0f0f0 0xcccccccc 0xaaaaaaaa = 0xe8e8e8e8 := by decide

/-- V12. -/
theorem test_rotr :
    rotr 0x80000001 1 = 0xc0000000 ∧ rotr 0x12345678 8 = 0x78123456 ∧
    rotr 0x12345678 31 = 0x2468acf0 := by decide

/-- `95_test_vectors.md` section 1: the tables' exclusive-ors. -/
theorem test_tables :
    K.length = 64 ∧ K.foldl (· ^^^ ·) 0 = 0x95c49cf5 ∧ IV.toList.foldl (· ^^^ ·) 0 = 0xc62760eb := by
  decide

set_option maxRecDepth 100000 in
/-- V20, the words 0, 15, 16, 17, 18 and 63. -/
theorem test_schedule :
    [0, 15, 16, 17, 18, 63].map (fun t => (schedule blockABC).getD t 0) =
      [0x61626380, 0x00000018, 0x61626380, 0x000f0000, 0x7da86405, 0x12b1edeb] := by decide

/-- V21, round 0. -/
theorem test_round_0 :
    roundStep (Vars.init IV) (0x428a2f98, 0x61626380) =
      { a := 0x5d6aebcd, b := 0x6a09e667, c := 0xbb67ae85, d := 0x3c6ef372,
        e := 0xfa2a4622, f := 0x510e527f, g := 0x9b05688c, h := 0x1f83d9ab } := by decide

/-! ### Padding and pads -/

/-- V31 at 55, 56, 63 and 64 bytes. -/
theorem test_padding :
    pad 55 0x1b8 = [0x80, 0, 0, 0, 0, 0, 0, 0x01, 0xb8] ∧
    pad 56 0x1c0 = 0x80 :: (List.replicate 63 0 ++ [0, 0, 0, 0, 0, 0, 0x01, 0xc0]) ∧
    pad 63 0x1f8 = 0x80 :: (List.replicate 56 0 ++ [0, 0, 0, 0, 0, 0, 0x01, 0xf8]) ∧
    pad 0 0x200 = 0x80 :: (List.replicate 55 0 ++ [0, 0, 0, 0, 0, 0, 0x02, 0x00]) := by decide

/-- V40: the field's largest exact value, and its wrap. -/
theorem test_length_field :
    BE64 (lengthBits { HashState.reset with byteCount := 0x1fffffffffffffff }) =
      [0xff, 0xff, 0xff, 0xff, 0xff, 0xff, 0xff, 0xf8] ∧
    BE64 (lengthBits { HashState.reset with byteCount := 0x2000000000000003 }) =
      [0, 0, 0, 0, 0, 0, 0, 0x18] := by decide

/-- V50. -/
theorem test_pads :
    innerPad [0x6b, 0x65, 0x79] = [0x5d, 0x53, 0x4f] ++ List.replicate 61 0x36 ∧
    outerPad [0x6b, 0x65, 0x79] = [0x37, 0x39, 0x25] ++ List.replicate 61 0x5c := by decide

/-! ### Commands, one step each -/

/-- V36: three absorbed bytes are discarded. -/
theorem test_hreset :
    after (exec .hreset (withHE (pendingEngine [0x61, 0x62, 0x63]))) =
      some { State.reset with resp := [0x00] } := by decide

set_option maxRecDepth 100000 in
/-- V32, from 63 bytes pending: the 64th byte compresses the block, the 65th is pending. -/
theorem test_habsorb_fills_a_block :
    (after (exec (.habsorb [0x61, 0x62]) (withHE (pendingEngine (as 63))))).map (·.HE) =
      some { H := { h0 := 0xdf5bb81c, h1 := 0xe81e0626, h2 := 0xfb45a894, h3 := 0x4fd40f31,
                    h4 := 0xb25e6816, h5 := 0xd6d499c1, h6 := 0xab904929, h7 := 0x00635e66 }
             byteCount := 65, pending := [0x62] } := by decide

set_option maxRecDepth 100000 in
/-- P1, line 3 (V2): the digest and the reset engine. -/
theorem test_hfinal :
    after (exec .hfinal (withHE (pendingEngine [0x61, 0x62, 0x63]))) =
      some { State.reset with resp := 0x00 :: digestABC } := by decide

/-- V60: MRESET in ABSORBING loses the message and the key. -/
theorem test_mreset :
    after (exec .mreset (withME foxed)) = some { State.reset with resp := [0x00] } := by decide

set_option maxRecDepth 100000 in
/-- V50, and V51 at 65 bytes: the key is hashed first. -/
theorem test_mkey :
    (after (exec (.mkey [0x6b, 0x65, 0x79]) State.reset)).map (·.ME) = some keyed ∧
    (after (exec (.mkey ((List.range 65).map (BitVec.ofNat 8))) State.reset)).map
      (fun t => (t.ME.keyMaterial.take 4, t.ME.inner.H.h0, t.ME.inner.byteCount)) =
      some ([0x4b, 0xfd, 0x2c, 0x8b], 0xc3e06c4e, 64) := by decide

/-- V60: MKEY with a key set answers 02 and keeps the first key. -/
theorem test_mkey_refused :
    after (exec (.mkey [0x7a, 0x7a]) (withME foxed)) = some { withME foxed with resp := [0x02] } := by
  decide

set_option maxRecDepth 100000 in
/-- V50, and V60: an empty operand makes it ABSORBING too. -/
theorem test_mabsorb :
    after (exec (.mabsorb fox) (withME keyed)) = some { withME foxed with resp := [0x00] } ∧
    (after (exec (.mabsorb []) (withME keyed))).map (·.ME) =
      some { keyed with macState := .absorbing } := by decide

set_option maxRecDepth 100000 in
/-- V3, and V60's effects of a successful MFINAL under MAC_POST_FINAL = KEYSET. -/
theorem test_mfinal :
    after (exec .mfinal { withME foxed with macPostFinal := .keyset }) =
      some { withME keyed with macPostFinal := .keyset, resp := 0x00 :: macFox } := by decide

/-- V60: MABSORB and MFINAL in UNINIT. -/
theorem test_mac_without_a_key :
    after (exec (.mabsorb [0x61, 0x62, 0x63]) State.reset) = some { State.reset with resp := [0x01] } ∧
    after (exec .mfinal State.reset) = some { State.reset with resp := [0x01] } := by decide

/-! ### Steps and moves -/

/-- The opcode table's words run as the first command after reset, each answering its one byte (V72). -/
theorem test_withFetchWord :
    (after (step (State.reset.withFetchWord 8 0x02))).map (·.resp) = some [0x00] ∧
    (after (step (State.reset.withFetchWord 8 0x12))).map (·.resp) = some [0x01] ∧
    (after (step (State.reset.withFetchWord 8 0x13))).map (·.resp) = some [0x01] ∧
    (after (step (State.reset.withFetchWord 40 0x0000000014))).map (·.ME.macState) = some .keyset := by
  decide

/-- P5 line 2: an illegal header. -/
theorem test_illegal_header :
    after (step (withCmd [0x04, 0x01])) = some { withCmd [0x01] with resp := [0x03] } := by decide

/-- P6: bytes arrive, and the engine waits for the rest of the frame. -/
theorem test_delivery_and_waiting :
    after (step { withCmd [0x02, 0, 0, 0] with schedule := [.deliver [0x03, 0x61, 0x62]] }) =
      some (withCmd [0x02, 0, 0, 0, 0x03, 0x61, 0x62]) ∧
    after (step (withCmd [0x02, 0, 0, 0, 0x03, 0x61, 0x62])) =
      some (withCmd [0x02, 0, 0, 0, 0x03, 0x61, 0x62]) := by decide

/-- R220: RESET empties both streams and restores both engines. -/
theorem test_reset_event :
    after (step { withME foxed with
      HE := pendingEngine [0x61], cmd := [0x02], resp := [0x00], schedule := [.reset] }) =
      some State.reset := by decide

/-- R85's operand forms: `"abc"`, `hex"…"`, a repeated byte, `‖`. -/
theorem test_operand_text :
    (OperandText.join (.ascii ['a', 'b', 'c']) (.join (.hex [0x01, 0xff]) (.repeated 0x61 3))).bytes =
      [0x61, 0x62, 0x63, 0x01, 0xff, 0x61, 0x61, 0x61] := by decide

/-- P1's command stream. -/
theorem test_sha256_program :
    assemble (sha256Program [[0x61, 0x62, 0x63]]) =
      [0x01, 0x02, 0, 0, 0, 0x03, 0x61, 0x62, 0x63, 0x03] := by decide

/-- V30's column "comp" at 56 and 65 bytes, and V51's at 65. -/
theorem test_counts :
    finalizeCompressions (pendingEngine (as 56)) = 2 ∧
    pushCompressions HashState.reset (as 65) = 1 ∧
    commandCompressions (.mkey (as 65)) State.reset = 3 := by
  set_option maxRecDepth 100000 in decide

/-! ### Witnesses: states and operands that meet the hypotheses of each statement

`witness_<name>` is for `Obligations.<name>`; a statement that is missing here has no hypotheses. -/

theorem witness_DecodeOfEncodeIsTheCommand :
    (Instr.hreset).WellFormed ∧ (Instr.mkey []).WellFormed ∧ (Instr.mabsorb fox).WellFormed := by decide

theorem witness_DecodedFrameIsItsEncoding :
    decode [0x14, 0, 0, 0, 1, 0x6b, 0x13] = .frame (.mkey [0x6b]) [0x13] := by decide

/-- Each clause: an operand that is short, one that is just whole, and illegal headers next to legal ones. -/
theorem witness_DecodeFollowsTheFrameFormats :
    ((0x14 : Byte) = 0x14 ∧ Instr.mkey = Instr.mkey) ∧ ([0, 0, 0] : List Byte).length < 4 ∧
    65536 = (0x00 : Byte).toNat * 2 ^ 24 + (0x01 : Byte).toNat * 2 ^ 16 + (0x00 : Byte).toNat * 2 ^ 8 +
      (0x00 : Byte).toNat ∧
    ∀ h ∈ ([0x00, 0x04, 0x10, 0x15, 0x83] : List Byte),
      h ∉ ([0x01, 0x02, 0x03, 0x11, 0x12, 0x13, 0x14] : List Byte) :=
  ⟨⟨rfl, rfl⟩, by decide, by decide, by decide⟩

theorem witness_HeaderFieldsSelectTheCommand :
    decode [0x03] = .frame .hfinal [] ∧ decode [0x14, 0, 0, 0, 0] = .frame (.mkey []) [] := by decide

theorem witness_StepRunsTheDecodedCommand :
    decode (withCmd [0x03, 0x01]).cmd = .frame .hfinal [0x01] ∧ (withCmd [0x03, 0x01]).schedule = [] ∧
    { withCmd [0x03] with schedule := [.engine, .reset] }.schedule = .engine :: [.reset] := by decide

theorem witness_IllegalHeaderAnswersIllegalCommand :
    (withCmd [0x04, 0x03]).schedule = [] ∧ (withCmd [0x04, 0x03]).cmd = 0x04 :: [0x03] ∧
    { withCmd [0x04] with schedule := [.engine, .read 1] }.schedule = .engine :: [.read 1] ∧
    { withCmd [0x04] with schedule := [.engine, .read 1] }.cmd = 0x04 :: [] ∧
    (0x04 : Byte) ∉ ([0x01, 0x02, 0x03, 0x11, 0x12, 0x13, 0x14] : List Byte) := by decide

/-- Two pieces, one of them empty, and the last byte of the operand. -/
theorem witness_FrameInPiecesRunsWhenWhole :
    let pieces : List (List Byte) := [[0x02, 0, 0, 0], [], [0x02, 0x61]]
    let s : State := { State.reset with
      schedule := (pieces.flatMap fun p => [Move.deliver p, Move.engine]) ++
        (.deliver [0x62] :: .engine :: [.reset]) }
    (Instr.habsorb [0x61, 0x62]).WellFormed ∧ s.cmd = [] ∧ ([0x62] : List Byte) ≠ [] ∧
    encode (.habsorb [0x61, 0x62]) = pieces.flatten ++ [0x62] ∧
    s.schedule = (pieces.flatMap fun p => [Move.deliver p, Move.engine]) ++
      (.deliver [0x62] :: .engine :: [.reset]) := by decide

theorem witness_ResetEventRestoresEveryElement :
    { withME foxed with schedule := [.reset, .engine] }.schedule = .reset :: [.engine] := by decide

theorem witness_OutsideMovesTouchOnlyTheStreams :
    { State.reset with schedule := [.deliver [0x01]] }.schedule = .deliver [0x01] :: [] ∧
    { State.reset with schedule := [.read 33, .engine] }.schedule = .read 33 :: [.engine] ∧
    { withME foxed with schedule := [.reset] }.schedule = .reset :: [] := by decide

theorem witness_ScheduleFollowsTheRecurrence :
    blockABC.length = 64 ∧ 0 < 16 ∧ 15 < 16 ∧ (16 ≤ 16 ∧ 16 < 64) ∧ (16 ≤ 63 ∧ 63 < 64) := by decide

/-- The least and the greatest amount, and a bit that wraps. -/
theorem witness_RotrMovesEveryBit :
    (0 < 1 ∧ 1 < 32 ∧ 31 < 32) ∧ (0 < 31 ∧ 31 < 32 ∧ 0 < 32) := by decide

theorem witness_MixingFunctionsBitByBit : 0 < 32 ∧ 28 < 32 ∧ 29 < 32 ∧ 31 < 32 := by decide

theorem witness_CompressIsSixtyFourRoundsAndFeedForward : blockABC.length = 64 ∧ 0 < 64 ∧ 63 < 64 := by
  decide

theorem witness_DigestIsBigEndian : (0 < 8 ∧ 0 < 4) ∧ (7 < 8 ∧ 3 < 4) := by decide

theorem witness_HabsorbCompressesWholeBlocks :
    (pendingEngine (as 63)).pending.length ≤ 63 ∧
    as 64 = (withHE (pendingEngine (as 63))).HE.pending ++ [0x61] := by decide

/-- One block: nothing pending and 55 bytes; two blocks: 56 and 63. -/
theorem witness_HfinalPadsInOneOrTwoBlocks :
    (withHE (pendingEngine [])).HE.pending.length ≤ 55 ∧
    (withHE (pendingEngine (as 55))).HE.pending.length ≤ 55 ∧
    (56 ≤ (withHE (pendingEngine (as 56))).HE.pending.length ∧
      (withHE (pendingEngine (as 56))).HE.pending.length ≤ 63) ∧
    (56 ≤ (withHE (pendingEngine (as 63))).HE.pending.length ∧
      (withHE (pendingEngine (as 63))).HE.pending.length ≤ 63) := by decide

theorem witness_HashIsIndependentOfChunking :
    ∀ i ∈ [Instr.habsorb [0x61], .mkey [], .habsorb [], .mfinal],
      i.forHash = false ∨ ∃ d, i = .habsorb d := by
  simp [Instr.forHash]

theorem witness_HashEngineIsReusableAfterFinalize :
    ∀ i ∈ [Instr.habsorb [0x61], .hfinal, .hreset, .hfinal], i.forHash = true := by decide

/-- The list of primes, and the first and the last index of each table. -/
theorem witness_ConstantTablesAreTheSpecs : (0 < 64 ∧ 63 < 64) ∧ (0 < 8 ∧ 7 < 8) := by decide

/-- Two chunks, one of them empty, and another command after the program. -/
theorem witness_Sha256ProgramAnswersTheDigest :
    let chunks : List (List Byte) := [[0x61], []]
    let s := withCmd [0x01, 0x02, 0, 0, 0, 1, 0x61, 0x02, 0, 0, 0, 0, 0x03, 0x11]
    s.schedule = [] ∧ s.cmd = assemble (sha256Program chunks) ++ [0x11] ∧
    (∀ c ∈ chunks, c.length < 2 ^ 32) ∧ chunks.flatten.length < 2 ^ 61 := by decide

/-- No key byte, 64 of them, and the first and the last index. -/
theorem witness_PadsExtendTheKeyWithZeros :
    ([] : List Byte).length ≤ 64 ∧ (as 64).length ≤ 64 ∧ 0 < 64 ∧ 63 < 64 := by decide

/-- A key of 64 bytes and one of 65. -/
theorem witness_MkeyTakesTheKeyIntoUse :
    State.reset.ME.macState = .uninit ∧ State.reset.ME.inner = HashState.reset ∧
    (as 64).length < 2 ^ 61 ∧ (as 65).length < 2 ^ 61 := by decide

/-- KEYSET and ABSORBING, and a next state that answers 02. -/
theorem witness_MkeyWithAKeySetIsRefused :
    (withME keyed).ME.macState ≠ .uninit ∧ (withME foxed).ME.macState ≠ .uninit ∧
    exec (.mkey []) (withME keyed) = .next { withME keyed with resp := [0x02] } ∧
    { withME keyed with resp := [0x02] }.resp = (withME keyed).resp ++ [0x02] :=
  ⟨by decide, by decide, rfl, rfl⟩

theorem witness_MacWithoutAKeyIsRefused :
    State.reset.ME.macState = .uninit ∧
    exec (.mabsorb []) State.reset = .next { State.reset with resp := [0x01] } ∧
    { State.reset with resp := [0x01] }.resp = State.reset.resp ++ [0x01] :=
  ⟨by decide, rfl, rfl⟩

theorem witness_StateAfterResetIsAsTabulated :
    (withME foxed).ME.macState ≠ .uninit ∧ (withME foxed).macPostFinal = .uninit := by decide

theorem witness_EveryCommandIsAnsweredOnce :
    ((withCmd [0x00, 0x13]).EnginesTurn ∧ decode (withCmd [0x00, 0x13]).cmd = .illegal 0x00 [0x13]) ∧
    ({ withCmd [0x00] with schedule := [.engine] }.EnginesTurn ∧
      decode { withCmd [0x00] with schedule := [.engine] }.cmd = .illegal 0x00 []) := by decide

/-- KEYSET with nothing pending, ABSORBING with an operand that fills the block. -/
theorem witness_MabsorbExtendsTheMessage :
    ((withME keyed).ME.macState ≠ .uninit ∧ (withME keyed).ME.inner.pending.length ≤ 63 ∧
      ([] : List Byte) = (withME keyed).ME.inner.pending ++ []) ∧
    ((withME foxed).ME.macState ≠ .uninit ∧ (withME foxed).ME.inner.pending.length ≤ 63 ∧
      fox ++ as 21 = (withME foxed).ME.inner.pending ++ as 21) := by decide

/-- The refused case, and both policies of the other. -/
theorem witness_MfinalHashesTheInnerDigest :
    State.reset.ME.macState = .uninit ∧ (withME foxed).ME.macState ≠ .uninit ∧
    (withME foxed).macPostFinal = .uninit ∧
    { withME keyed with macPostFinal := .keyset }.ME.macState ≠ .uninit ∧
    { withME keyed with macPostFinal := .keyset }.macPostFinal = .keyset := by decide

theorem witness_MacIsIndependentOfChunking :
    (withME keyed).ME.macState ≠ .uninit ∧
    (∀ i ∈ [Instr.mabsorb fox, .hfinal, .mabsorb []], i.forHash = true ∨ ∃ d, i = .mabsorb d) ∧
    ∃ d, Instr.mabsorb d ∈ [Instr.mabsorb fox, .hfinal, .mabsorb []] :=
  ⟨by decide, by simp [Instr.forHash], [], by decide⟩

theorem witness_MacStateFollowsTheTransitionTable :
    ((withCmd [0xff, 0x13]).EnginesTurn ∧ decode (withCmd [0xff, 0x13]).cmd = .illegal 0xff [0x13]) ∧
    ({ withCmd [0xff] with schedule := [.engine, .reset] }.EnginesTurn ∧
      decode { withCmd [0xff] with schedule := [.engine, .reset] }.cmd = .illegal 0xff []) ∧
    { withME foxed with schedule := [.reset] }.schedule = .reset :: [] := by decide

theorem witness_HmacProgramAnswersTheMac :
    let chunks : List (List Byte) := [[0x61], []]
    let s := withCmd [0x11, 0x14, 0, 0, 0, 1, 0x6b, 0x12, 0, 0, 0, 1, 0x61, 0x12, 0, 0, 0, 0, 0x13]
    s.schedule = [] ∧ s.cmd = assemble (hmacProgram [0x6b] chunks) ++ [] ∧
    ([0x6b] : List Byte).length < 2 ^ 32 ∧ (∀ c ∈ chunks, c.length < 2 ^ 32) ∧
    64 + chunks.flatten.length < 2 ^ 61 := by decide

/-- Under both policies; the two messages differ. -/
theorem witness_SecondMessageFollowsThePolicy :
    State.reset.ME.macState = .uninit ∧ State.reset.ME.inner = HashState.reset ∧
    { State.reset with macPostFinal := .keyset }.ME.macState = .uninit ∧
    { State.reset with macPostFinal := .keyset }.ME.inner = HashState.reset ∧
    ([0x6b] : List Byte).length < 2 ^ 61 ∧ 64 + ([] : List Byte).length < 2 ^ 61 ∧
    64 + fox.length < 2 ^ 61 := by decide

/-- Both boundaries: a key extended to exactly 64 bytes, and one of 65. -/
theorem witness_HmacKeysThatCannotBeToldApart :
    (fox.length + 21 ≤ 64 ∧ 64 < (as 65).length) := by decide

theorem witness_CommandsKeepToTheirEngine :
    (Instr.habsorb fox).forHash = true ∧ (Instr.mkey fox).forHash = false := by decide

theorem witness_HashAndMacCommandsCommute :
    Instr.hfinal.forHash = true ∧ Instr.mfinal.forHash = false := by decide

/-- All three errors, each from its cause. -/
theorem witness_ErrorsHaveTheirCausesAndChangeNothing :
    ((withCmd [0x13]).EnginesTurn ∧ step (withCmd [0x13]) = .next { State.reset with resp := [0x01] } ∧
      (0x01 : Byte) ≠ 0x00 ∧ { State.reset with resp := [0x01] }.resp = (withCmd [0x13]).resp ++ [0x01]) ∧
    ({ withME keyed with cmd := [0x14, 0, 0, 0, 0], schedule := [.engine] }.EnginesTurn ∧
      step { withME keyed with cmd := [0x14, 0, 0, 0, 0], schedule := [.engine] } = .next { withME keyed with resp := [0x02] } ∧
      (0x02 : Byte) ≠ 0x00) ∧
    (step (withCmd [0x83]) = .next { State.reset with resp := [0x03] } ∧ (0x03 : Byte) ≠ 0x00) :=
  ⟨⟨by decide, rfl, by decide, rfl⟩, ⟨by decide, rfl, by decide⟩, rfl, by decide⟩

/-- Two states that differ in everything the answer must not depend on. -/
theorem witness_ResponsesRevealOnlyDigestsAndMacState :
    (withHE (pendingEngine [0x61])).HE = { withME foxed with HE := pendingEngine [0x61] }.HE ∧
    (withME foxed).ME = { withME foxed with HE := pendingEngine [0x61] }.ME ∧
    (withME foxed).ME.macState =
      (withME { foxed with keyMaterial := [0x01], inner := HashState.reset }).ME.macState := by decide

/-- HABSORB from 63 bytes pending. -/
theorem witness_EveryStepKeepsThePendingLength :
    let s : State := { withHE (pendingEngine (as 63)) with ME := foxed, cmd := [0x02, 0, 0, 0, 1, 0x61] }
    s.HE.pending.length = s.HE.byteCount.toNat % 64 ∧
    s.ME.inner.pending.length = s.ME.inner.byteCount.toNat % 64 ∧ ∃ t, step s = .next t :=
  ⟨by decide, by decide, _, rfl⟩

/-- A machine with a message in each engine. -/
def invState : State := { State.reset with
  HE := absorb .reset (as 63)
  ME := { inner := absorb .reset (innerPad [0x6b] ++ fox), macState := .absorbing, keyMaterial := [0x6b] }
  cmd := [0x13] }

theorem invState_HE : invState.HE = absorb .reset (as 63) := rfl

theorem invState_inner : invState.ME.inner = absorb .reset (innerPad [0x6b] ++ fox) := rfl

theorem invState_he : invState.HE.HoldsMessage := ⟨as 63, rfl⟩

theorem invState_me : invState.ME.Inv := by
  constructor
  · decide
  · intro h; cases h
  · intro _; exact ⟨fox, rfl⟩
  · intro h; cases h
  · rw [invState_inner]; exact absorb_fill HashState.reset_fill _

theorem invState_inv : invState.Inv := by
  refine ⟨invState_he, ?_, invState_me⟩
  rw [invState_HE]; exact absorb_fill HashState.reset_fill _

theorem witness_EveryStepKeepsTheInvariant : invState.Inv ∧ ∃ t, step invState = .next t :=
  ⟨invState_inv, _, rfl⟩

/-- Both sides of every bound: 55 and 56 bytes pending, keys of 64 and 65 bytes. -/
theorem witness_CompressionCountsAreAsTabulated :
    invState.Inv ∧ State.reset.Inv ∧ (as 64).length ≤ 64 ∧ 64 < (as 65).length ∧
    (as 119).length % 64 ≤ 55 ∧ ¬ (as 120).length % 64 ≤ 55 :=
  ⟨invState_inv,
    ⟨⟨[], rfl⟩, HashState.reset_fill,
      ⟨by decide, fun _ => ⟨rfl, rfl⟩, fun h => absurd rfl h, fun h => MacPhase.noConfusion h, rfl⟩⟩,
    by decide, by decide, by decide, by decide⟩

end Sys2Proof.Tests
end

/-! SUPPORT. What one step can do, and what it can do to a HashEngine instance (`spec/10_state.md` R22 to
R24). -/

namespace Sys2Proof.Machine

/-! ### What one step can do -/

/-- The state past the move that a step takes off the schedule (log 3). -/
def State.pastMove (s : State) : State := { s with schedule := s.schedule.tail }

@[simp] theorem State.pastMove_HE (s : State) : s.pastMove.HE = s.HE := rfl
@[simp] theorem State.pastMove_ME (s : State) : s.pastMove.ME = s.ME := rfl
@[simp] theorem State.pastMove_macPostFinal (s : State) : s.pastMove.macPostFinal = s.macPostFinal := rfl
@[simp] theorem State.pastMove_cmd (s : State) : s.pastMove.cmd = s.cmd := rfl
@[simp] theorem State.pastMove_resp (s : State) : s.pastMove.resp = s.resp := rfl
@[simp] theorem State.pastMove_schedule (s : State) : s.pastMove.schedule = s.schedule.tail := rfl

/-- Everything a step can do, by whose turn it is. -/
theorem step_inv {s t : State} (h : step s = .next t) :
    (s.EnginesTurn ∧ decode s.cmd = .incomplete ∧ t = s.pastMove) ∨
    (s.EnginesTurn ∧ ∃ i rest, decode s.cmd = .frame i rest ∧
      exec i (s.pastMove.setCmd rest) = .next t) ∨
    (s.EnginesTurn ∧ ∃ b rest, decode s.cmd = .illegal b rest ∧
      t = (s.pastMove.setCmd rest).raise .illegalCommand) ∨
    (∃ bytes, s.schedule.head? = some (.deliver bytes) ∧
      t = { s.pastMove with cmd := s.cmd ++ bytes }) ∨
    (∃ n, s.schedule.head? = some (.read n) ∧ t = { s.pastMove with resp := s.resp.drop n }) ∨
    (s.schedule.head? = some .reset ∧ t = s.pastMove.hardReset) := by
  by_cases hturn : s.EnginesTurn
  · have h : engineTurn s.pastMove = .next t := step_of_enginesTurn hturn ▸ h
    cases hd : decode s.cmd with
    | incomplete =>
      rw [engineTurn_waits (s := s.pastMove) hd] at h
      exact .inl ⟨hturn, rfl, (Host.Outcome.next.inj h).symm⟩
    | frame i rest =>
      rw [engineTurn_frame (s := s.pastMove) hd] at h
      exact .inr (.inl ⟨hturn, i, rest, rfl, h⟩)
    | illegal b rest =>
      rw [engineTurn_illegal (s := s.pastMove) hd] at h
      exact .inr (.inr (.inl ⟨hturn, b, rest, rfl, (Host.Outcome.next.inj h).symm⟩))
  · obtain ⟨m, later, hs⟩ : ∃ m later, s.schedule = m :: later :=
      List.exists_cons_of_ne_nil fun hnil => hturn (.inl (by rw [hnil]; rfl))
    rw [step_move hs] at h
    simp only [State.pastMove, hs, List.head?_cons, List.tail_cons]
    cases m with
    | engine => exact absurd (.inr (by rw [hs]; rfl)) hturn
    | deliver bytes => exact .inr (.inr (.inr (.inl ⟨bytes, rfl, (Host.Outcome.next.inj h).symm⟩)))
    | read n => exact .inr (.inr (.inr (.inr (.inl ⟨n, rfl, (Host.Outcome.next.inj h).symm⟩))))
    | reset => exact .inr (.inr (.inr (.inr (.inr ⟨rfl, (Host.Outcome.next.inj h).symm⟩))))

/-! ### What a step can do to an engine: reset it, and absorb bytes into it -/

/-- `F` is `E`, or the reset state, after some bytes were absorbed. -/
def HashState.AbsorbsTo (E F : HashState) : Prop := ∃ data, F = absorb E data ∨ F = absorb .reset data

theorem HashState.absorbsTo_refl (E : HashState) : E.AbsorbsTo E := ⟨[], .inl rfl⟩

theorem HashState.absorbsTo_absorb (E : HashState) (data : List Byte) : E.AbsorbsTo (absorb E data) :=
  ⟨data, .inl rfl⟩

theorem HashState.absorbsTo_absorb_reset (E : HashState) (data : List Byte) :
    E.AbsorbsTo (absorb .reset data) := ⟨data, .inr rfl⟩

theorem HashState.absorbsTo_reset (E : HashState) : E.AbsorbsTo .reset := E.absorbsTo_absorb_reset []

/-- R24 is kept by whatever only resets and absorbs. -/
theorem HashState.Fill.of_absorbsTo {E F : HashState} (hE : E.Fill) (h : E.AbsorbsTo F) : F.Fill := by
  obtain ⟨data, rfl | rfl⟩ := h
  · exact absorb_fill hE data
  · exact absorb_fill HashState.reset_fill data

/-- MKEY processes a key of either length and absorbs its `innerPad` (`42_mac_engine.md` R164). -/
theorem startMessage_processKey_absorbsTo (E : HashState) (key : List Byte) :
    E.AbsorbsTo (startMessage (processKey E key).2 (processKey E key).1).inner := by
  rw [startMessage_inner]
  by_cases hlen : key.length ≤ 64
  · rw [processKey_short hlen]
    exact E.absorbsTo_absorb (innerPad key)
  · rw [processKey_long (by omega)]
    exact E.absorbsTo_absorb_reset _

/-- Both policies of MFINAL start from the reset engine (`42_mac_engine.md` R168, R169). -/
theorem afterFinal_absorbsTo (E : HashState) (policy : MacPostFinal) (km : List Byte) :
    E.AbsorbsTo (afterFinal policy .reset km).inner := by
  cases policy with
  | uninit => exact E.absorbsTo_reset
  | keyset => exact E.absorbsTo_absorb_reset (innerPad km)

/-- Every command, answered or refused. -/
theorem exec_absorbsTo {i : Instr} {s t : State} (h : exec i s = .next t) :
    s.HE.AbsorbsTo t.HE ∧ s.ME.inner.AbsorbsTo t.ME.inner := by
  have hHE := s.HE.absorbsTo_refl
  have hME := s.ME.inner.absorbsTo_refl
  obtain ⟨-, rfl⟩ | ⟨data, -, rfl⟩ | ⟨-, rfl⟩ | ⟨-, rfl⟩ | ⟨key, -, -, rfl⟩ | ⟨key, -, -, rfl⟩ |
    ⟨data, -, -, rfl⟩ | ⟨data, -, -, rfl⟩ | ⟨-, -, rfl⟩ | ⟨-, -, rfl⟩ := exec_inv h
  · exact ⟨s.HE.absorbsTo_reset, hME⟩
  · exact ⟨s.HE.absorbsTo_absorb data, hME⟩
  · exact ⟨s.HE.absorbsTo_reset, hME⟩
  · exact ⟨hHE, s.ME.inner.absorbsTo_reset⟩
  · exact ⟨hHE, hME⟩
  · rw [State.respond_HE, State.setME_HE, State.respond_ME, State.setME_ME]
    exact ⟨hHE, startMessage_processKey_absorbsTo s.ME.inner key⟩
  · exact ⟨hHE, hME⟩
  · exact ⟨hHE, s.ME.inner.absorbsTo_absorb data⟩
  · exact ⟨hHE, hME⟩
  · exact ⟨hHE, afterFinal_absorbsTo _ _ _⟩

/-- Every step: commands, refusals, illegal headers, waiting, outside moves, RESET. -/
theorem step_absorbsTo {s t : State} (h : step s = .next t) :
    s.HE.AbsorbsTo t.HE ∧ s.ME.inner.AbsorbsTo t.ME.inner := by
  have unchanged := And.intro s.HE.absorbsTo_refl s.ME.inner.absorbsTo_refl
  obtain ⟨-, -, rfl⟩ | ⟨-, i, rest, -, hexec⟩ | ⟨-, b, rest, -, rfl⟩ | ⟨bytes, -, rfl⟩ | ⟨n, -, rfl⟩ |
    ⟨-, rfl⟩ := step_inv h
  · exact unchanged
  · simpa using exec_absorbsTo hexec
  · exact unchanged
  · exact unchanged
  · exact unchanged
  · exact ⟨s.HE.absorbsTo_reset, s.ME.inner.absorbsTo_reset⟩

/-! ### The pads of a key, and the engine an ended key session leaves -/

/-- Byte `i` of a pad, the key read as extended with zeros (`10_state.md` R29). -/
theorem padKey_getElem? {i : Nat} (hi : i < 64) (x : Byte) (km : List Byte) :
    (padKey x km)[i]? = some ((if h : i < km.length then km[i] else 0x00) ^^^ x) := by
  have hpad : (padKey x km)[i]? = some (km.getD i 0 ^^^ x) := by simp [padKey, hi]
  rw [hpad]
  split
  · next h => rw [List.getD_eq_getElem km 0 h]
  · next h => rw [List.getD_eq_default km 0 (by omega)]

/-- Under the policy UNINIT nothing of the key session is left (`42_mac_engine.md` R169). -/
theorem afterFinal_uninit (km : List Byte) : afterFinal .uninit .reset km = .reset := rfl

end Sys2Proof.Machine

/-! SUPPORT. The statements of `spec/10_state.md`. -/

namespace Sys2Proof.Proofs

open Sys2Proof Sys2Proof.Machine

/-- Settles O42: a step only resets the engines and absorbs bytes into them, and both keep R24. -/
theorem everyStepKeepsThePendingLength : Obligations.EveryStepKeepsThePendingLength := by
  refine ⟨⟨HashState.reset_fill, HashState.reset_fill⟩, ?_⟩
  intro s t hHE hME hstep
  obtain ⟨toHE, toME⟩ := step_absorbsTo hstep
  exact ⟨HashState.Fill.of_absorbsTo hHE toHE, HashState.Fill.of_absorbsTo hME toME⟩

/-- Settles O25: both pads are `padKey`, with their own constant. -/
theorem padsExtendTheKeyWithZeros : Obligations.PadsExtendTheKeyWithZeros := by
  intro km _
  exact ⟨innerPad_length km, outerPad_length km,
    fun i hi => ⟨padKey_getElem? hi 0x36 km, padKey_getElem? hi 0x5C km⟩⟩

/-- Settles O11: the reset values by computation, the four commands by the equations of `exec`. -/
theorem stateAfterResetIsAsTabulated : Obligations.StateAfterResetIsAsTabulated := by
  refine ⟨rfl, rfl, rfl, rfl, rfl, rfl, fun s => ⟨?hreset, ?hfinal, ?mreset, ?mfinal⟩⟩
  case hreset => exact ⟨_, exec_hreset s, rfl⟩
  case hfinal => exact ⟨_, exec_hfinal s, rfl⟩
  case mreset => exact ⟨_, exec_mreset s, rfl⟩
  case mfinal =>
    intro hkey hpolicy
    refine ⟨_, exec_mfinal hkey, ?_⟩
    rw [State.respond_ME, State.setME_ME, hpolicy]
    exact afterFinal_uninit s.ME.keyMaterial

end Sys2Proof.Proofs

/-! SUPPORT. The bytes of big-endian words laid end to end (`20_memory.md` R52). -/

namespace Sys2Proof.Machine

/-- Byte `k` of `BE32 w` is bits `31 - 8k` down to `24 - 8k` (`00_scope.md` R8). -/
theorem BE32_getD {k : Nat} (hk : k < 4) (w : Word) :
    (BE32 w).getD k 0 = w.extractLsb' (24 - 8 * k) 8 := by
  match k with
  | 0 | 1 | 2 | 3 => rfl

/-- Four bytes per word: word `j` begins at byte `4j`. -/
theorem flatMap_BE32_getD {k : Nat} (hk : k < 4) (ws : List Word) (j : Nat) (hj : j < ws.length) :
    (ws.flatMap BE32).getD (4 * j + k) 0 = (BE32 (ws.getD j 0)).getD k 0 := by
  induction ws generalizing j with
  | nil => exact absurd hj (Nat.not_lt_zero j)
  | cons w ws ih =>
    rw [List.flatMap_cons]
    cases j with
    | zero =>
      rw [Nat.mul_zero, Nat.zero_add, List.getD_append _ _ _ _ hk, List.getD_cons_zero]
    | succ j =>
      have hskip : 4 * (j + 1) + k - (BE32 w).length = 4 * j + k := by
        rw [BE32_length]; omega
      rw [List.getD_append_right _ _ _ _ (by rw [BE32_length]; omega), hskip,
        List.getD_cons_succ]
      exact ih j (Nat.lt_of_succ_lt_succ hj)

end Sys2Proof.Machine

/-! SUPPORT. The statements of `spec/20_memory.md`. -/

namespace Sys2Proof.Proofs

open Sys2Proof Sys2Proof.Machine

/-- Settles O16: byte `4j + k` of the digest is byte `k` of `BE32` of word `j`. -/
theorem digestIsBigEndian : Obligations.DigestIsBigEndian := by
  intro H
  refine ⟨digest_length H, fun j k hj hk => ?_⟩
  calc (digest H).getD (4 * j + k) 0
    _ = (BE32 (H.toList.getD j 0)).getD k 0 := flatMap_BE32_getD hk H.toList j hj
    _ = (H.toList.getD j 0).extractLsb' (24 - 8 * k) 8 := BE32_getD hk _

end Sys2Proof.Proofs

/-! SUPPORT. The header byte: which bytes are headers, and what their four fields say
(`spec/30_encoding.md` R74, R77, R78). -/

namespace Sys2Proof

open Sys2Proof.Machine

/-! ### Which bytes are headers -/

/-- "The seven legal headers are the seven values of rule R77" (R74). -/
def legalHeaders : List Byte := [0x01, 0x02, 0x03, 0x11, 0x12, 0x13, 0x14]

/-- Every command's header is legal. -/
theorem Instr.header_mem_legalHeaders (i : Instr) : i.header ∈ legalHeaders := by
  cases i <;> dsimp only [Instr.header] <;> decide

/-- The header of a decoded frame is that of its command. -/
theorem decode_frame_header {h : Byte} {s r : List Byte} {i : Instr} (hd : decode (h :: s) = .frame i r) :
    h = i.header := by
  have operand {cmd : List Byte → Instr} (heq : decode (h :: s) = decodeOperand cmd s)
      (hcmd : ∀ d, h = (cmd d).header) : h = i.header := by
    obtain ⟨d, -, rfl, -⟩ := decodeOperand_inv (heq ▸ hd)
    exact hcmd d
  obtain ⟨hh, heq⟩ | ⟨hh, heq⟩ | ⟨hh, heq⟩ | ⟨hh, heq⟩ | ⟨hh, heq⟩ | ⟨hh, heq⟩ | ⟨hh, heq⟩ | ⟨-, heq⟩ :=
    decode_cons h s
  · cases heq ▸ hd; exact hh
  · cases heq ▸ hd; exact hh
  · cases heq ▸ hd; exact hh
  · cases heq ▸ hd; exact hh
  · exact operand heq fun _ => hh
  · exact operand heq fun _ => hh
  · exact operand heq fun _ => hh
  · cases heq ▸ hd

/-- "Every header value other than the seven of rule R77 is illegal" (R78). -/
theorem decode_illegal_iff (h : Byte) (s : List Byte) :
    decode (h :: s) = .illegal h s ↔ h ∉ legalHeaders := by
  have legal {i : Instr} (hh : h = i.header) (hne : decode (h :: s) ≠ .illegal h s) :
      decode (h :: s) = .illegal h s ↔ h ∉ legalHeaders :=
    iff_of_false hne (not_not_intro (hh ▸ i.header_mem_legalHeaders))
  obtain ⟨hh, heq⟩ | ⟨hh, heq⟩ | ⟨hh, heq⟩ | ⟨hh, heq⟩ | ⟨hh, heq⟩ | ⟨hh, heq⟩ | ⟨hh, heq⟩ | ⟨hne, heq⟩ :=
    decode_cons h s
  · exact legal (i := .hreset) hh (by simp [heq])
  · exact legal (i := .hfinal) hh (by simp [heq])
  · exact legal (i := .mreset) hh (by simp [heq])
  · exact legal (i := .mfinal) hh (by simp [heq])
  · exact legal (i := .habsorb []) hh (heq ▸ decodeOperand_ne_illegal _ s h s)
  · exact legal (i := .mabsorb []) hh (heq ▸ decodeOperand_ne_illegal _ s h s)
  · exact legal (i := .mkey []) hh (heq ▸ decodeOperand_ne_illegal _ s h s)
  · obtain ⟨h01, h03, h11, h13, h02, h12, h14⟩ := hne
    refine iff_of_true heq ?_
    simp only [legalHeaders, List.mem_cons, List.not_mem_nil, or_false, not_or]
    exact ⟨h01, h02, h03, h11, h12, h13, h14⟩

/-! ### The fields of a header -/

/-- The pattern `000e0ooo` with an OP of R74's table, KEY for ENG = 1 only, over the 256 bytes. -/
theorem mem_legalHeaders_iff_fields : ∀ h : Byte,
    h ∈ legalHeaders ↔ hdrZ1 h = 0 ∧ hdrZ0 h = 0 ∧
      (hdrOP h = 1 ∨ hdrOP h = 2 ∨ hdrOP h = 3 ∨ (hdrOP h = 4 ∧ hdrENG h = 1)) := by
  decide

/-- The OP field of a command's header: RESET, ABSORB, FINAL or KEY (R74). -/
def Instr.opcode : Instr → BitVec 3
  | .hreset | .mreset => 1
  | .habsorb _ | .mabsorb _ => 2
  | .hfinal | .mfinal => 3
  | .mkey _ => 4

@[simp] theorem hdrOP_header (i : Instr) : hdrOP i.header = i.opcode := by
  cases i <;> dsimp only [Instr.header, Instr.opcode] <;> decide

/-- ENG = 0 selects the HashEngine (R74). -/
theorem hdrENG_header_eq_zero_iff (i : Instr) : hdrENG i.header = 0 ↔ i.forHash = true := by
  cases i <;> dsimp only [Instr.header, Instr.forHash] <;> decide

theorem Instr.opcode_eq_reset_iff (i : Instr) : i.opcode = 1 ↔ i = .hreset ∨ i = .mreset := by
  cases i <;> simp [opcode]

theorem Instr.opcode_eq_absorb_iff (i : Instr) : i.opcode = 2 ↔ ∃ d, i = .habsorb d ∨ i = .mabsorb d := by
  cases i <;> simp [opcode]

theorem Instr.opcode_eq_final_iff (i : Instr) : i.opcode = 3 ↔ i = .hfinal ∨ i = .mfinal := by
  cases i <;> simp [opcode]

theorem Instr.opcode_eq_key_iff (i : Instr) : i.opcode = 4 ↔ ∃ k, i = .mkey k := by
  cases i <;> simp [opcode]

/-! ### The operand of a format B frame -/

/-- A length field that has not arrived whole (R76, `|s| < 5`). -/
theorem decodeOperand_of_length_lt {s : List Byte} (hs : s.length < 4) (cmd : List Byte → Instr) :
    decodeOperand cmd s = .incomplete := by
  match s, hs with
  | [], _ | [_], _ | [_, _], _ | [_, _, _], _ => rfl
  | _ :: _ :: _ :: _ :: s, hs => simp at hs; omega

/-- LEN is the big-endian number of the four bytes, and counts the operand's (R75, R76). -/
theorem decodeOperand_of_lengthField (cmd : List Byte → Instr) (l0 l1 l2 l3 : Byte) (s : List Byte)
    {len : Nat} (hlen : len = l0.toNat * 2 ^ 24 + l1.toNat * 2 ^ 16 + l2.toNat * 2 ^ 8 + l3.toNat) :
    decodeOperand cmd (l0 :: l1 :: l2 :: l3 :: s) =
      if s.length < len then .incomplete else .frame (cmd (s.take len)) (s.drop len) := by
  rw [hlen, ← be32_toNat]
  rfl

end Sys2Proof

/-! SUPPORT. The answers to the commands whose meaning looks at `macState` (`spec/30_encoding.md` R80,
R81). -/

namespace Sys2Proof.Machine

/-- The answer to MKEY, by whether a key is set (R81). -/
theorem exec_mkey_resp (key : List Byte) (s : State) : ∃ t, exec (.mkey key) s = .next t ∧
    t.resp = s.resp ++ [if s.ME.macState = .uninit then 0x00 else 0x02] := by
  by_cases hkey : s.ME.macState = .uninit
  · refine ⟨_, exec_mkey hkey key, ?_⟩
    rw [if_pos hkey, State.respond_resp, State.setME_resp, Response.ok_bytes]
  · rw [if_neg hkey]; exact ⟨_, exec_mkey_refused hkey key, rfl⟩

/-- The answer to MABSORB, by whether a key is set (R81). -/
theorem exec_mabsorb_resp (data : List Byte) (s : State) : ∃ t, exec (.mabsorb data) s = .next t ∧
    t.resp = s.resp ++ [if s.ME.macState = .uninit then 0x01 else 0x00] := by
  by_cases hkey : s.ME.macState = .uninit
  · rw [if_pos hkey]; exact ⟨_, exec_mabsorb_refused hkey data, rfl⟩
  · rw [if_neg hkey]; exact ⟨_, exec_mabsorb hkey data, rfl⟩

/-- The answer to MFINAL: format D with a key set, the error's status without (R80, R81). -/
theorem exec_mfinal_resp (s : State) : ∃ t, exec .mfinal s = .next t ∧
    if s.ME.macState = .uninit then t.resp = s.resp ++ [0x01]
    else ∃ d : List Byte, d.length = 32 ∧ t.resp = s.resp ++ 0x00 :: d := by
  by_cases hkey : s.ME.macState = .uninit
  · simp only [if_pos hkey]; exact ⟨_, exec_mfinal_refused hkey, rfl⟩
  · simp only [if_neg hkey]; exact ⟨_, exec_mfinal hkey, _, finalize_fst_length _, rfl⟩

end Sys2Proof.Machine

/-! SUPPORT. The statements of `spec/30_encoding.md` on the frame formats, the header's fields and the
responses. -/

namespace Sys2Proof.Proofs

open Sys2Proof Sys2Proof.Machine

/-- Settles O3: the four format N headers compute, a format B header leaves the operand to
`decodeOperand`, and `decode_illegal_iff` says which headers are left. -/
theorem decodeFollowsTheFrameFormats : Obligations.DecodeFollowsTheFrameFormats := by
  refine ⟨rfl, fun s => ⟨rfl, rfl, rfl, rfl⟩, ?formatB, fun h s => (decode_illegal_iff h s).mpr⟩
  case formatB =>
    intro h cmd hcmd
    have operand (s : List Byte) : decode (h :: s) = decodeOperand cmd s := by
      obtain ⟨rfl, rfl⟩ | ⟨rfl, rfl⟩ | ⟨rfl, rfl⟩ := hcmd <;> rfl
    refine ⟨fun s hs => ?_, fun l0 l1 l2 l3 s len hlen => ?_⟩
    · rw [operand, decodeOperand_of_length_lt hs]
    · rw [operand, decodeOperand_of_lengthField cmd l0 l1 l2 l3 s hlen]

/-- Settles O4: the legal headers are those whose fields fit the pattern, and a frame's header is its
command's. -/
theorem headerFieldsSelectTheCommand : Obligations.HeaderFieldsSelectTheCommand := by
  refine ⟨fun h s => ?illegal, fun h s r i hd => ?frame⟩
  case illegal => rw [decode_illegal_iff, mem_legalHeaders_iff_fields]
  case frame =>
    obtain rfl := decode_frame_header hd
    rw [hdrOP_header]
    exact ⟨hdrENG_header_eq_zero_iff i, i.opcode_eq_reset_iff, i.opcode_eq_absorb_iff,
      i.opcode_eq_final_iff, i.opcode_eq_key_iff⟩

/-- Settles O37: one response per command, by the equations of `exec`, and one for an illegal header. -/
theorem everyCommandIsAnsweredOnce : Obligations.EveryCommandIsAnsweredOnce := by
  refine ⟨fun s h rest hturn hd => ?illegal, fun i s => ?command⟩
  case illegal =>
    rw [step_of_enginesTurn hturn, engineTurn_illegal (s := { s with schedule := s.schedule.tail }) hd]
    exact ⟨_, rfl, rfl⟩
  case command =>
    cases i with
    | hreset => exact ⟨_, exec_hreset s, rfl⟩
    | habsorb data => exact ⟨_, exec_habsorb data s, rfl⟩
    | hfinal => exact ⟨_, exec_hfinal s, _, finalize_fst_length s.HE, rfl⟩
    | mreset => exact ⟨_, exec_mreset s, rfl⟩
    | mkey key => exact exec_mkey_resp key s
    | mabsorb data => exact exec_mabsorb_resp data s
    | mfinal => exact exec_mfinal_resp s

end Sys2Proof.Proofs

/-! SUPPORT. Every word of the message schedule (`spec/40_compression.md` R112). -/

namespace Sys2Proof.Machine

/-- Word `t` of a block is `be32` of its bytes `4t .. 4t+3` (`20_memory.md` R50). -/
theorem blockWords_getD {block : List Byte} {t : Nat} (ht : 4 * t + 3 < block.length) :
    (blockWords block).getD t 0 = be32 (block.getD (4 * t) 0) (block.getD (4 * t + 1) 0)
      (block.getD (4 * t + 2) 0) (block.getD (4 * t + 3) 0) := by
  induction block using blockWords.induct generalizing t with
  | case1 a b c d rest ih =>
    cases t with
    | zero => rfl
    | succ t => exact ih (by simp only [List.length_cons] at ht; omega)
  | case2 s hshort =>
    match s, hshort with
    | a :: b :: c :: d :: rest, hshort => exact absurd rfl (hshort a b c d rest)
    | [], _ | [_], _ | [_, _], _ | [_, _, _], _ => simp at ht

/-- Later words stand in front: without the last `m`, the words are those of `m` fewer extensions. -/
theorem drop_extendSchedule (m n : Nat) (ws : List Word) :
    (extendSchedule (m + n) ws).drop m = extendSchedule n ws := by
  induction m with
  | zero => rw [Nat.zero_add, List.drop_zero]
  | succ m ih => rw [Nat.succ_add, extendSchedule_succ, List.drop_succ_cons, ih]

/-- After `n` extensions of the 16 words of a block the latest word is `W[n + 15]`, and index `k` counts
back from it. -/
theorem extendSchedule_getD {block : List Byte} (hlen : block.length = 64) {n k : Nat} (hn : n ≤ 48)
    (hk : k < n + 16) :
    (extendSchedule n (blockWords block).reverse).getD k 0 = (schedule block).getD (n + 15 - k) 0 := by
  have hall : (extendSchedule 48 (blockWords block).reverse).length = 64 := by
    rw [extendSchedule_length, List.length_reverse, blockWords_length, hlen]
  have hdrop := drop_extendSchedule (48 - n) n (blockWords block).reverse
  rw [Nat.sub_add_cancel hn] at hdrop
  have hpos : 64 - 1 - (n + 15 - k) = 48 - n + k := by omega
  rw [← hdrop, schedule, List.getD_eq_getElem?_getD, List.getD_eq_getElem?_getD, List.getElem?_drop,
    List.getElem?_reverse (by omega), hall, hpos]

/-- The first 16 schedule words are the words of the block. -/
theorem schedule_getD_of_lt {block : List Byte} (hlen : block.length = 64) {t : Nat} (ht : t < 16) :
    (schedule block).getD t 0 = (blockWords block).getD t 0 := by
  have hwords : (blockWords block).length = 16 := by rw [blockWords_length, hlen]
  have hfirst := extendSchedule_getD hlen (n := 0) (k := 15 - t) (by omega) (by omega)
  have hback : 0 + 15 - (15 - t) = t := by omega
  have hpos : 16 - 1 - (15 - t) = t := by omega
  rw [hback] at hfirst
  rw [← hfirst, extendSchedule, List.getD_eq_getElem?_getD, List.getElem?_reverse (by omega), hwords,
    hpos, List.getD_eq_getElem?_getD]

/-- Every later schedule word is `nextWord` of the words before it. -/
theorem schedule_getD_eq_nextWord {block : List Byte} (hlen : block.length = 64) {n : Nat} (hn : n < 48) :
    (schedule block).getD (n + 16) 0 = nextWord (extendSchedule n (blockWords block).reverse) := by
  have hlatest := extendSchedule_getD hlen (n := n + 1) (k := 0) hn (by omega)
  rw [extendSchedule_succ, List.getD_cons_zero] at hlatest
  exact hlatest.symm

end Sys2Proof.Machine

/-! SUPPORT. The statements of `spec/40_compression.md`. -/

namespace Sys2Proof.Proofs

open Sys2Proof Sys2Proof.Machine

/-- Settles O12: the first words are the block's, and `nextWord` reads the words at distance 2, 7, 15 and
16 from the latest-first list. -/
theorem scheduleFollowsTheRecurrence : Obligations.ScheduleFollowsTheRecurrence := by
  intro block hlen
  refine ⟨schedule_length hlen, fun t ht => ?blockWord, fun t hfrom hto => ?recurrence⟩
  case blockWord => rw [schedule_getD_of_lt hlen ht, blockWords_getD (by omega), be32_toNat]
  case recurrence =>
    obtain ⟨n, rfl⟩ := Nat.exists_eq_add_of_le' hfrom
    have hn : n < 48 := by omega
    have back {k : Nat} (hk : k < 16) := extendSchedule_getD hlen hn.le (k := k) (by omega)
    rw [schedule_getD_eq_nextWord hlen hn, nextWord, back (by decide), back (by decide),
      back (by decide), back (by decide)]
    rfl

end Sys2Proof.Proofs

/-! SUPPORT. The two shapes of the padding, the byte step of absorbing, and what a sequence of hash
commands depends on (`spec/41_hash_engine.md` R132, R134, R135, R140). -/

namespace Sys2Proof.Machine

/-! ### The padding in one block or two -/

/-- R134's table, first row. -/
theorem zeroCount_of_le {p : Nat} (hp : p ≤ 55) : zeroCount p = 55 - p := by
  rw [zeroCount]; omega

/-- R134's table, second row: fill the first block, then 56 bytes of the second. -/
theorem zeroCount_of_ge {p : Nat} (hlow : 56 ≤ p) (hhigh : p ≤ 63) : zeroCount p = (63 - p) + 56 := by
  rw [zeroCount]; omega

/-- The block in front is compressed first. -/
theorem compressBlocks_succ_append {P : List Byte} (hP : P.length = 64) (n : Nat) (S : HWords)
    (Q : List Byte) : compressBlocks (n + 1) S (P ++ Q) = compressBlocks n (compress S P) Q := by
  rw [compressBlocks, List.take_left' hP, List.drop_left' hP]

/-- One block alone. -/
theorem compressBlocks_one {P : List Byte} (hP : P.length = 64) (S : HWords) :
    compressBlocks 1 S P = compress S P := by
  rw [compressBlocks, List.take_of_length_le hP.le, compressBlocks]

/-- At most 55 pending bytes leave room for the length field in the same block. -/
theorem finalize_fst_of_le {E : HashState} (hp : E.pending.length ≤ 55) :
    (finalize E).1 = digest (compress E.H (E.pending ++
      0x80 :: (List.replicate (55 - E.pending.length) 0 ++ BE64 (lengthBits E)))) := by
  have hblock : (E.pending ++
      0x80 :: (List.replicate (55 - E.pending.length) 0 ++ BE64 (lengthBits E))).length = 64 := by
    simp only [List.length_append, List.length_cons, List.length_replicate, BE64_length]; omega
  rw [finalize_eq (by omega), pad, zeroCount_of_le hp, hblock]
  exact congrArg digest (compressBlocks_one hblock E.H)

/-- From 56 pending bytes on, the length field stands in a second block. -/
theorem finalize_fst_of_ge {E : HashState} (hlow : 56 ≤ E.pending.length)
    (hhigh : E.pending.length ≤ 63) :
    (finalize E).1 = digest (compress
      (compress E.H (E.pending ++ 0x80 :: List.replicate (63 - E.pending.length) 0))
      (List.replicate 56 0 ++ BE64 (lengthBits E))) := by
  have hfirst : (E.pending ++ 0x80 :: List.replicate (63 - E.pending.length) (0 : Byte)).length = 64 := by
    simp only [List.length_append, List.length_cons, List.length_replicate]; omega
  have hsecond : (List.replicate 56 0 ++ BE64 (lengthBits E)).length = 64 := by simp
  have hpad : E.pending ++ pad E.pending.length (lengthBits E) =
      (E.pending ++ 0x80 :: List.replicate (63 - E.pending.length) 0) ++
        (List.replicate 56 0 ++ BE64 (lengthBits E)) := by
    simp only [pad, zeroCount_of_ge hlow hhigh, List.replicate_add, List.append_assoc, List.cons_append]
  rw [finalize_eq (by omega), hpad, List.length_append, hfirst, hsecond]
  exact congrArg digest ((compressBlocks_succ_append hfirst 1 E.H _).trans (compressBlocks_one hsecond _))

/-! ### Absorbing a byte -/

/-- Everything absorbing one byte does (R132). -/
theorem absorbByte_eq (E : HashState) (b : Byte) :
    absorbByte E b =
      if E.pending.length + 1 = 64 then
        { H := compress E.H (E.pending ++ [b]), byteCount := E.byteCount + 1, pending := [] }
      else { H := E.H, byteCount := E.byteCount + 1, pending := E.pending ++ [b] } := by
  simp only [absorbByte, pushByte, List.length_append, List.length_singleton]
  split <;> rfl

/-- HABSORB of a byte and more is HABSORB of the rest after that byte. -/
theorem exec_habsorb_cons (b : Byte) (data : List Byte) (s : State) :
    exec (.habsorb (b :: data)) s = exec (.habsorb data) (s.setHE (absorbByte s.HE b)) := rfl

/-! ### Hash commands look at nothing but `HE` -/

/-- What a hash command does to `HE` and what it answers depends on `HE` alone. -/
theorem exec_of_forHash {i : Instr} (hi : i.forHash = true) (E : HashState) :
    ∃ F r, ∀ s : State, s.HE = E → exec i s = .next ((s.setHE F).respond r) := by
  cases i with
  | hreset => exact ⟨_, _, fun s _ => exec_hreset s⟩
  | habsorb data => exact ⟨_, _, fun s hs => hs ▸ exec_habsorb data s⟩
  | hfinal => exact ⟨_, _, fun s hs => hs ▸ exec_hfinal s⟩
  | mreset | mkey key | mabsorb data | mfinal => cases hi

/-- The same of any sequence of hash commands: from every machine with this `HE` it leaves the same `HE`,
sends the same bytes, and changes nothing else. -/
theorem execAll_of_forHash (p : List Instr) (hp : ∀ i ∈ p, i.forHash = true) (E : HashState) :
    ∃ F out, ∀ s : State, s.HE = E →
      execAll p s = .next { s with HE := F, resp := s.resp ++ out } := by
  induction p generalizing E with
  | nil => exact ⟨E, [], fun s hs => by rw [execAll, List.append_nil, ← hs]⟩
  | cons i p ih =>
    obtain ⟨hi, hp⟩ := List.forall_mem_cons.mp hp
    obtain ⟨F, r, hexec⟩ := exec_of_forHash hi E
    obtain ⟨G, out, hrest⟩ := ih hp F
    refine ⟨G, r.bytes ++ out, fun s hs => ?_⟩
    simp only [execAll, hexec s hs]
    rw [hrest _ rfl, State.respond_resp, List.append_assoc]
    rfl

end Sys2Proof.Machine

/-! SUPPORT. The statements of `spec/41_hash_engine.md` on HRESET, the byte step, the padding and the
reuse of the engine. -/

namespace Sys2Proof.Proofs

open Sys2Proof Sys2Proof.Machine

/-- Settles O20: the padding makes one block or two, and `exec_hfinal` gives the frame. -/
theorem hfinalPadsInOneOrTwoBlocks : Obligations.HfinalPadsInOneOrTwoBlocks := by
  refine ⟨fun _ => rfl, fun s => ⟨fun hp => ?oneBlock, fun hlow hhigh => ?twoBlocks⟩⟩
  case oneBlock => rw [exec_hfinal, finalize_fst_of_le hp]; rfl
  case twoBlocks => rw [exec_hfinal, finalize_fst_of_ge hlow hhigh]; rfl

/-- Settles O22: HFINAL leaves the reset `HE`, and what hash commands do depends on `HE` alone. -/
theorem hashEngineIsReusableAfterFinalize : Obligations.HashEngineIsReusableAfterFinalize := by
  intro s p hp
  obtain ⟨F, out, hrun⟩ := execAll_of_forHash p hp .reset
  exact ⟨_, _, _, _, out, exec_hfinal s, exec_hreset s, rfl, rfl, hrun _ rfl, hrun State.reset rfl,
    rfl, rfl, rfl⟩

/-- Settles O17: `exec_hreset`, its state written out. -/
theorem hresetWipesTheHashEngine : Obligations.HresetWipesTheHashEngine :=
  ⟨fun _ => rfl, exec_hreset⟩

/-- Settles O18: an empty operand leaves `HE` as it is, and `absorbByte_eq` says what one byte does. -/
theorem habsorbAbsorbsByteByByte : Obligations.HabsorbAbsorbsByteByByte := by
  intro s
  refine ⟨exec_habsorb [] s, fun b data => ?_⟩
  rw [exec_habsorb_cons, absorbByte_eq]
  rfl

end Sys2Proof.Proofs

/-! SUPPORT. The statements of `spec/42_mac_engine.md`. -/

namespace Sys2Proof.Proofs

open Sys2Proof Sys2Proof.Machine

/-- Settles O26: `exec_mreset`, with the reset state of `ME` written out. -/
theorem mresetWipesTheMacEngine : Obligations.MresetWipesTheMacEngine :=
  ⟨fun _ => rfl, exec_mreset⟩

end Sys2Proof.Proofs

/-! SUPPORT. What a decoded frame and an illegal header take off the command stream, and which commands
answer an error (`spec/60_exceptions.md` R190 to R194). -/

namespace Sys2Proof

/-! ### What the decoder consumes -/

/-- A frame consumes the encoding of a well-formed command (R76, R82). -/
theorem wellFormed_and_eq_encode_of_decode_frame {s r : List Byte} {i : Instr}
    (hd : decode s = .frame i r) : i.WellFormed ∧ s = encode i ++ r := by
  cases s with
  | nil => cases hd
  | cons h s =>
    have operand {cmd : List Byte → Instr} {hdr : Byte} (hh : h = hdr)
        (heq : decode (h :: s) = decodeOperand cmd s) (hop : ∀ d, (cmd d).operand = d)
        (henc : ∀ d, encode (cmd d) = encodeB hdr d) : i.WellFormed ∧ h :: s = encode i ++ r := by
      obtain ⟨d, hlen, rfl, rfl⟩ := decodeOperand_inv (heq ▸ hd)
      refine ⟨by rw [Instr.WellFormed, hop]; exact hlen, ?_⟩
      rw [henc, hh, encodeB, List.cons_append, List.append_assoc]
    obtain ⟨hh, heq⟩ | ⟨hh, heq⟩ | ⟨hh, heq⟩ | ⟨hh, heq⟩ | ⟨hh, heq⟩ | ⟨hh, heq⟩ | ⟨hh, heq⟩ | ⟨-, heq⟩ :=
      decode_cons h s
    · cases heq ▸ hd; exact ⟨by decide, hh ▸ rfl⟩
    · cases heq ▸ hd; exact ⟨by decide, hh ▸ rfl⟩
    · cases heq ▸ hd; exact ⟨by decide, hh ▸ rfl⟩
    · cases heq ▸ hd; exact ⟨by decide, hh ▸ rfl⟩
    · exact operand hh heq (fun _ => rfl) fun _ => rfl
    · exact operand hh heq (fun _ => rfl) fun _ => rfl
    · exact operand hh heq (fun _ => rfl) fun _ => rfl
    · cases heq ▸ hd

/-- An illegal header consumes itself alone (R78, R192). -/
theorem eq_cons_of_decode_illegal {s r : List Byte} {b : Byte} (hd : decode s = .illegal b r) :
    s = b :: r ∧ b ∉ legalHeaders := by
  cases s with
  | nil => cases hd
  | cons h s =>
    have hsame : h = b ∧ s = r := by
      obtain ⟨-, heq⟩ | ⟨-, heq⟩ | ⟨-, heq⟩ | ⟨-, heq⟩ | ⟨-, heq⟩ | ⟨-, heq⟩ | ⟨-, heq⟩ | ⟨-, heq⟩ :=
        decode_cons h s
      · cases heq ▸ hd
      · cases heq ▸ hd
      · cases heq ▸ hd
      · cases heq ▸ hd
      · exact absurd (heq ▸ hd) (decodeOperand_ne_illegal _ s b r)
      · exact absurd (heq ▸ hd) (decodeOperand_ne_illegal _ s b r)
      · exact absurd (heq ▸ hd) (decodeOperand_ne_illegal _ s b r)
      · exact Decoded.illegal.inj (heq ▸ hd)
    obtain ⟨rfl, rfl⟩ := hsame
    exact ⟨rfl, (decode_illegal_iff h s).mp hd⟩

end Sys2Proof

namespace Sys2Proof.Machine

/-! ### Which commands answer an error -/

/-- A command answers OK (status 00 first), or is one of the two refusals (R190, R191). -/
theorem exec_answers_ok_or_raises {i : Instr} {s t : State} (h : exec i s = .next t) :
    (∃ d, t.resp = s.resp ++ 0x00 :: d) ∨
    (s.ME.macState = .uninit ∧ (i = .mfinal ∨ ∃ data, i = .mabsorb data) ∧
      t = s.raise .uninitializedKey) ∨
    (s.ME.macState ≠ .uninit ∧ (∃ key, i = .mkey key) ∧ t = s.raise .keyAlreadySet) := by
  obtain ⟨-, rfl⟩ | ⟨data, -, rfl⟩ | ⟨-, rfl⟩ | ⟨-, rfl⟩ | ⟨key, hi, hkey, rfl⟩ | ⟨key, -, -, rfl⟩ |
    ⟨data, hi, hkey, rfl⟩ | ⟨data, -, -, rfl⟩ | ⟨hi, hkey, rfl⟩ | ⟨-, -, rfl⟩ := exec_inv h
  · exact .inl ⟨[], rfl⟩
  · exact .inl ⟨[], rfl⟩
  · exact .inl ⟨_, rfl⟩
  · exact .inl ⟨[], rfl⟩
  · exact .inr (.inr ⟨hkey, ⟨key, hi⟩, rfl⟩)
  · exact .inl ⟨[], by rw [State.respond_resp, State.setME_resp, Response.ok_bytes]⟩
  · exact .inr (.inl ⟨hkey, .inr ⟨data, hi⟩, rfl⟩)
  · exact .inl ⟨[], rfl⟩
  · exact .inr (.inl ⟨hkey, .inl hi, rfl⟩)
  · exact .inl ⟨_, rfl⟩

/-- The one byte `raise` appends is the error's status (R193). -/
theorem eq_code_of_raise_resp {s : State} {err : Err} {e : Byte}
    (h : (s.raise err).resp = s.resp ++ [e]) : e = err.code :=
  (List.singleton_inj.mp (List.append_cancel_left h)).symm

/-- A command that answers a status other than 00 was refused, for the cause that the status names. -/
theorem exec_error_cause {i : Instr} {s t : State} {e : Byte} (h : exec i s = .next t) (he : e ≠ 0x00)
    (hresp : t.resp = s.resp ++ [e]) :
    (e = 0x01 ∧ s.ME.macState = .uninit ∧ (i = .mfinal ∨ ∃ data, i = .mabsorb data) ∧
      t = s.raise .uninitializedKey) ∨
    (e = 0x02 ∧ s.ME.macState ≠ .uninit ∧ (∃ key, i = .mkey key) ∧ t = s.raise .keyAlreadySet) := by
  obtain ⟨d, hok⟩ | ⟨hkey, hi, rfl⟩ | ⟨hkey, hi, rfl⟩ := exec_answers_ok_or_raises h
  · have hbytes : 0x00 :: d = [e] := List.append_cancel_left (hok.symm.trans hresp)
    exact absurd (List.cons.inj hbytes).1.symm he
  · exact .inl ⟨eq_code_of_raise_resp hresp, hkey, hi, rfl⟩
  · exact .inr ⟨eq_code_of_raise_resp hresp, hkey, hi, rfl⟩

end Sys2Proof.Machine

/-! SUPPORT. The statements of `spec/60_exceptions.md`. -/

namespace Sys2Proof.Proofs

open Sys2Proof Sys2Proof.Machine

/-- Settles O40: by what the decoder makes of the command stream. Waiting answers nothing, a frame's error
has the cause of `exec_error_cause`, an illegal header is raised as it stands. -/
theorem errorsHaveTheirCausesAndChangeNothing : Obligations.ErrorsHaveTheirCausesAndChangeNothing := by
  intro s t e hturn hstep he hresp
  have hengine : engineTurn s.pastMove = .next t := step_of_enginesTurn hturn ▸ hstep
  cases hd : decode s.cmd with
  | incomplete =>
    obtain rfl := Host.Outcome.next.inj ((engineTurn_waits (s := s.pastMove) hd).symm.trans hengine)
    exact absurd (List.self_eq_append_right.mp hresp) (List.cons_ne_nil e [])
  | frame i rest =>
    obtain ⟨hwf, hcmd⟩ := wellFormed_and_eq_encode_of_decode_frame hd
    have hexec : exec i (s.pastMove.setCmd rest) = .next t :=
      (engineTurn_frame (s := s.pastMove) hd).symm.trans hengine
    obtain ⟨hcode, hkey, hi, rfl⟩ | ⟨hcode, hkey, hi, rfl⟩ := exec_error_cause hexec he hresp
    · exact ⟨rfl, rfl, .inl ⟨i, hwf, hcmd, .inl ⟨hcode, hkey, hi⟩⟩⟩
    · exact ⟨rfl, rfl, .inl ⟨i, hwf, hcmd, .inr ⟨hcode, hkey, hi⟩⟩⟩
  | illegal b rest =>
    obtain ⟨hcmd, hillegal⟩ := eq_cons_of_decode_illegal hd
    obtain rfl := Host.Outcome.next.inj ((engineTurn_illegal (s := s.pastMove) hd).symm.trans hengine)
    exact ⟨rfl, rfl, .inr ⟨b, hillegal, hcmd, eq_code_of_raise_resp hresp⟩⟩

/-- Settles O28: `exec_mkey_refused` one way, `exec_error_cause` at status 02 the other. -/
theorem mkeyWithAKeySetIsRefused : Obligations.MkeyWithAKeySetIsRefused := by
  intro s
  refine ⟨fun key hkey => exec_mkey_refused hkey key, fun i t hexec hresp => ?_⟩
  obtain ⟨hcode, -⟩ | ⟨-, hkey, hi, -⟩ := exec_error_cause hexec (by decide) hresp
  · exact absurd hcode (by decide)
  · exact ⟨hkey, hi⟩

/-- Settles O29: the two refusals one way, `exec_error_cause` at status 01 the other. -/
theorem macWithoutAKeyIsRefused : Obligations.MacWithoutAKeyIsRefused := by
  intro s
  refine ⟨fun hkey => ⟨exec_mabsorb_refused hkey, exec_mfinal_refused hkey⟩,
    fun i t hexec hresp => ?_⟩
  obtain ⟨-, hkey, hi, -⟩ | ⟨hcode, -⟩ := exec_error_cause hexec (by decide) hresp
  · exact ⟨hkey, hi⟩
  · exact absurd hcode (by decide)

end Sys2Proof.Proofs

/-! SUPPORT. The statements of `spec/70_reset_and_hazards.md`. -/

namespace Sys2Proof.Machine

/-- A step that takes the RESET event (`70_reset_and_hazards.md` R220). -/
theorem step_reset {s : State} {later : List Move} (h : s.schedule = .reset :: later) :
    step s = .next { s with schedule := later }.hardReset :=
  (step_move h).trans (takeMove_reset _)

end Sys2Proof.Machine

namespace Sys2Proof.Proofs

open Sys2Proof Sys2Proof.Machine

/-- Settles O9: the equations of the RESET step, of HRESET and of MRESET. Each puts the same reset values,
whatever the state held. -/
theorem resetEventRestoresEveryElement : Obligations.ResetEventRestoresEveryElement := by
  intro s later hs
  refine ⟨_, _, _, step_reset hs, exec_hreset s, exec_mreset s, ?_⟩
  exact ⟨State.hardReset_HE _, State.hardReset_ME _, State.hardReset_cmd _, State.hardReset_resp _, rfl, rfl⟩

end Sys2Proof.Proofs

/-! SUPPORT. The encoder and the decoder against each other, and a frame that has not arrived whole
(`spec/30_encoding.md` R76, R79, R82). -/

namespace Sys2Proof

open Sys2Proof.Machine

/-- A format B frame is read back from its length field and its operand. -/
theorem decodeOperand_encodeB (cmd : List Byte → Instr) {d : List Byte} (hd : d.length < 2 ^ 32)
    (h : Byte) (r : List Byte) : decodeOperand cmd ((encodeB h d ++ r).tail) = .frame (cmd d) r := by
  rw [encodeB, List.cons_append, List.tail_cons, List.append_assoc]
  exact decodeOperand_frame cmd hd r

/-- `decode(encode(c) ‖ r) = Frame(c, r)` (R82). -/
theorem decode_encode_append {i : Instr} (hi : i.WellFormed) (r : List Byte) :
    decode (encode i ++ r) = .frame i r := by
  cases i with
  | hreset | hfinal | mreset | mfinal => rfl
  | habsorb data => exact decodeOperand_encodeB .habsorb hi hdrHABSORB r
  | mkey key => exact decodeOperand_encodeB .mkey hi hdrMKEY r
  | mabsorb data => exact decodeOperand_encodeB .mabsorb hi hdrMABSORB r

/-- What decodes to an illegal header still does when more bytes follow. -/
theorem decode_append_of_illegal {p r : List Byte} {b : Byte} (hp : decode p = .illegal b r)
    (q : List Byte) : decode (p ++ q) = .illegal b (r ++ q) := by
  obtain ⟨rfl, hb⟩ := eq_cons_of_decode_illegal hp
  exact (decode_illegal_iff b (r ++ q)).mpr hb

/-- What decodes to a frame still does when more bytes follow. -/
theorem decode_append_of_frame {p r : List Byte} {j : Instr} (hp : decode p = .frame j r)
    (q : List Byte) : decode (p ++ q) = .frame j (r ++ q) := by
  obtain ⟨hj, rfl⟩ := wellFormed_and_eq_encode_of_decode_frame hp
  rw [List.append_assoc, decode_encode_append hj]

/-- A frame without its last bytes is no frame yet: the engine waits for the rest (R79). -/
theorem decode_of_encode_eq_append {i : Instr} (hi : i.WellFormed) {p q : List Byte}
    (hcut : encode i = p ++ q) (hq : q ≠ []) : decode p = .incomplete := by
  have hwhole : decode (p ++ q) = .frame i [] := by
    rw [← hcut, ← List.append_nil (encode i), decode_encode_append hi]
  cases hp : decode p with
  | incomplete => rfl
  | frame j r =>
    have hrest : r ++ q = [] := (Decoded.frame.inj ((decode_append_of_frame hp q).symm.trans hwhole)).2
    exact absurd (List.append_eq_nil_iff.mp hrest).2 hq
  | illegal b r => cases (decode_append_of_illegal hp q).symm.trans hwhole

end Sys2Proof

namespace Sys2Proof.Machine

/-! ### Steps in the engine's turn, and deliveries -/

/-- A step in the engine's turn that runs the frame next on the command stream. -/
theorem step_frame {s : State} {i : Instr} {rest : List Byte} (hturn : s.EnginesTurn)
    (hd : decode s.cmd = .frame i rest) : step s = exec i (s.pastMove.setCmd rest) :=
  (step_of_enginesTurn hturn).trans (engineTurn_frame (s := s.pastMove) hd)

/-- A step in the engine's turn that answers an illegal header. -/
theorem step_illegal {s : State} {b : Byte} {rest : List Byte} (hturn : s.EnginesTurn)
    (hd : decode s.cmd = .illegal b rest) :
    step s = .next ((s.pastMove.setCmd rest).raise .illegalCommand) :=
  (step_of_enginesTurn hturn).trans (engineTurn_illegal (s := s.pastMove) hd)

/-- A step in the engine's turn while no frame is whole (log 4). -/
theorem step_waits {s : State} (hturn : s.EnginesTurn) (hd : decode s.cmd = .incomplete) :
    step s = .next s.pastMove :=
  (step_of_enginesTurn hturn).trans (engineTurn_waits (s := s.pastMove) hd)

theorem State.pastMove_of_nil {s : State} (hs : s.schedule = []) : s.pastMove = s := by
  rw [State.pastMove, hs, List.tail_nil, ← hs]

theorem State.pastMove_of_cons {s : State} {m : Move} {later : List Move} (hs : s.schedule = m :: later) :
    s.pastMove = { s with schedule := later } := by
  rw [State.pastMove, hs, List.tail_cons]

theorem State.enginesTurn_of_nil {s : State} (hs : s.schedule = []) : s.EnginesTurn := .inl (by rw [hs]; rfl)

theorem State.enginesTurn_of_engine {s : State} {later : List Move} (hs : s.schedule = .engine :: later) :
    s.EnginesTurn := .inr (by rw [hs]; rfl)

/-- A step that runs the frame next on the command stream, no outside move waiting. -/
theorem step_frame_of_nil {s : State} {i : Instr} {rest : List Byte} (hs : s.schedule = [])
    (hd : decode s.cmd = .frame i rest) : step s = exec i (s.setCmd rest) := by
  rw [step_frame (State.enginesTurn_of_nil hs) hd, State.pastMove_of_nil hs]

/-- A delivery and the engine's turn after it are one turn with the bytes in the command stream. -/
theorem run_deliver_engine {s : State} {bytes : List Byte} {later : List Move}
    (hs : s.schedule = .deliver bytes :: .engine :: later) (n : Nat) :
    Host.Core.run Sys2Proof.core (n + 2) s =
      Host.Core.run Sys2Proof.core (n + 1) { s with cmd := s.cmd ++ bytes, schedule := .engine :: later } :=
  run_succ ((step_move hs).trans (takeMove_deliver bytes _)) (n + 1)

/-- The pieces of a frame, `s.cmd` those that are there already: each turn but the last waits, the last
runs the command (R79). -/
theorem run_pieces {i : Instr} (hi : i.WellFormed) {last : List Byte} (hlast : last ≠ [])
    (later : List Move) (pieces : List (List Byte)) (s : State)
    (hframe : encode i = s.cmd ++ pieces.flatten ++ last)
    (hs : s.schedule = (pieces.flatMap fun p => [Move.deliver p, Move.engine]) ++
      (.deliver last :: .engine :: later)) :
    Host.Core.run Sys2Proof.core (2 * pieces.length + 2) s =
      exec i { s with cmd := [], schedule := later } := by
  induction pieces generalizing s with
  | nil =>
    rw [List.flatten_nil, List.append_nil] at hframe
    have hd : decode (s.cmd ++ last) = .frame i [] := by
      rw [← hframe, ← List.append_nil (encode i), decode_encode_append hi]
    rw [List.length_nil, run_deliver_engine hs, run_one,
      step_frame (s := { s with cmd := s.cmd ++ last, schedule := .engine :: later }) (.inr rfl) hd]
    rfl
  | cons p ps ih =>
    rw [List.flatten_cons, ← List.append_assoc] at hframe
    have hd : decode (s.cmd ++ p) = .incomplete :=
      decode_of_encode_eq_append hi (hframe.trans (List.append_assoc ..))
        (List.append_ne_nil_of_right_ne_nil _ hlast)
    rw [List.length_cons, Nat.mul_succ, run_deliver_engine hs, run_succ (step_waits (.inr rfl) hd)]
    exact ih _ hframe rfl

end Sys2Proof.Machine

/-! SUPPORT. The statements of `spec/30_encoding.md` on encoding, on the engine's turn and on deliveries, and
those of `spec/20_memory.md` and `spec/60_exceptions.md` on a step. -/

namespace Sys2Proof.Proofs

open Sys2Proof Sys2Proof.Machine

/-- Settles O1: a header alone computes, and an operand is read back by `decodeOperand_frame`. -/
theorem decodeOfEncodeIsTheCommand : Obligations.DecodeOfEncodeIsTheCommand :=
  fun _ r hi => decode_encode_append hi r

/-- Settles O2: the inversion of `decode` on a frame. -/
theorem decodedFrameIsItsEncoding : Obligations.DecodedFrameIsItsEncoding :=
  fun _ _ _ hd => wellFormed_and_eq_encode_of_decode_frame hd

/-- Settles O5: by running the decoder. -/
theorem writtenOutFramesDecode : Obligations.WrittenOutFramesDecode := by
  refine ⟨?_, ?_, ?_, ?_⟩ <;> decide

/-- Settles O6: `step_frame`, in both forms of the engine's turn. -/
theorem stepRunsTheDecodedCommand : Obligations.StepRunsTheDecodedCommand := by
  intro s i rest hd
  refine ⟨fun hs => ?_, fun later hs => ?_⟩
  · exact step_frame_of_nil hs hd
  · rw [step_frame (State.enginesTurn_of_engine hs) hd, State.pastMove_of_cons hs]; rfl

/-- Settles O7: `step_illegal`, in both forms of the engine's turn. -/
theorem illegalHeaderAnswersIllegalCommand : Obligations.IllegalHeaderAnswersIllegalCommand := by
  intro s h rest hcmd hillegal
  have hd : decode s.cmd = .illegal h rest := hcmd ▸ (decode_illegal_iff h rest).mpr hillegal
  refine ⟨fun hs => ?_, fun later hs => ?_⟩
  · rw [step_illegal (State.enginesTurn_of_nil hs) hd, State.pastMove_of_nil hs]; rfl
  · rw [step_illegal (State.enginesTurn_of_engine hs) hd, State.pastMove_of_cons hs]; rfl

/-- Settles O8: by induction on the pieces; a frame without its last bytes decodes to Incomplete. -/
theorem frameInPiecesRunsWhenWhole : Obligations.FrameInPiecesRunsWhenWhole := by
  intro s i pieces last later hi hcmd hlast hcut hs
  rw [run_pieces hi hlast later pieces s (by rw [hcmd, List.nil_append, hcut]) hs, ← hcmd]

/-- Settles O10: the equations of the three outside moves. -/
theorem outsideMovesTouchOnlyTheStreams : Obligations.OutsideMovesTouchOnlyTheStreams := by
  intro s later
  refine ⟨fun bytes hs => ?deliver, fun n hs => ?read, fun hs => ?reset⟩
  case deliver => exact (step_move hs).trans (takeMove_deliver bytes _)
  case read => exact (step_move hs).trans (takeMove_read n _)
  case reset =>
    exact ⟨_, step_reset hs, State.hardReset_macPostFinal _, State.hardReset_schedule _⟩

end Sys2Proof.Proofs

/-! SUPPORT. The mixing functions bit by bit, the working variables round by round, and the tables as roots of
primes (`spec/40_compression.md` R101 to R115). -/

namespace Sys2Proof.Machine

/-! ### Bits -/

/-- R101: a bit comes from `x >> n`, or wraps around from `x << (32 - n)`. -/
theorem rotr_getLsbD {n i : Nat} (hn : 0 < n) (hn32 : n < 32) (hi : i < 32) (x : Word) :
    (rotr x n).getLsbD i = x.getLsbD ((i + n) % 32) := by
  rw [rotr, BitVec.getLsbD_or, BitVec.getLsbD_ushiftRight, BitVec.getLsbD_shiftLeft, Nat.add_comm n i]
  by_cases hwrap : i + n < 32
  · have hlow : i < 32 - n := by omega
    simp [Nat.mod_eq_of_lt hwrap, hlow]
  · have hmod : (i + n) % 32 = i - (32 - n) := by omega
    have hhigh : ¬ i < 32 - n := by omega
    rw [hmod, BitVec.getLsbD_of_ge x (i + n) (by omega)]
    simp [hi, hhigh]

/-- R110: Ch chooses. -/
theorem Ch_getLsbD {i : Nat} (hi : i < 32) (x y z : Word) :
    (Ch x y z).getLsbD i = if x.getLsbD i then y.getLsbD i else z.getLsbD i := by
  rw [Ch, BitVec.getLsbD_xor, BitVec.getLsbD_and, BitVec.getLsbD_and, BitVec.getLsbD_not, decide_eq_true hi]
  cases x.getLsbD i <;> simp

/-- R110: Maj is the majority. -/
theorem Maj_getLsbD (x y z : Word) (i : Nat) :
    (Maj x y z).getLsbD i =
      decide (2 ≤ (x.getLsbD i).toNat + (y.getLsbD i).toNat + (z.getLsbD i).toNat) := by
  have majority : ∀ a b c : Bool,
      ((a && b) ^^ (a && c) ^^ (b && c)) = decide (2 ≤ a.toNat + b.toNat + c.toNat) := by decide
  simp only [Maj, BitVec.getLsbD_xor, BitVec.getLsbD_and, majority]

/-! ### Rounds -/

/-- The working variables before round `t` (R111, R113). -/
def roundVars (S : HWords) (block : List Byte) (t : Nat) : Vars :=
  ((K.zip (schedule block)).take t).foldl roundStep (Vars.init S)

/-- Round `t` works with `K[t]` and `W[t]` (R114). -/
theorem roundVars_succ {block : List Byte} (hlen : block.length = 64) {t : Nat} (ht : t < 64)
    (S : HWords) :
    roundVars S block (t + 1) =
      roundStep (roundVars S block t) (K.getD t 0, (schedule block).getD t 0) := by
  have hK : t < K.length := ht
  have hW : t < (schedule block).length := by rw [schedule_length hlen]; exact ht
  have hround : (K.zip (schedule block))[t]? = some (K.getD t 0, (schedule block).getD t 0) := by
    rw [List.getD_eq_getElem K 0 hK, List.getD_eq_getElem _ 0 hW, List.getElem?_zip_eq_some]
    exact ⟨List.getElem?_eq_getElem hK, List.getElem?_eq_getElem hW⟩
  rw [roundVars, List.take_add_one, hround, List.foldl_append]
  rfl

/-- The 64 rounds are all there are, and the feed-forward follows (R113, R115). -/
theorem compress_eq_feedForward {block : List Byte} (hlen : block.length = 64) (S : HWords) :
    compress S block = feedForward S (roundVars S block 64) := by
  have hall : (K.zip (schedule block)).length ≤ 64 := by
    rw [List.length_zip, K_length, schedule_length hlen, Nat.min_self]
  rw [compress, roundVars, List.take_of_length_le hall]

/-! ### Roots of primes -/

/-- `w` is the first 32 fractional bits of the `e`-th root of `p`, whose integer part is below 7: with the
integer part in front of it, it is the integer part of `2^32` times the root (R108, R109). -/
def IsRootFraction (e p : Nat) (w : Word) : Prop :=
  ∃ q < 7, (q * 2 ^ 32 + w.toNat) ^ e ≤ p * 2 ^ (32 * e) ∧ p * 2 ^ (32 * e) < (q * 2 ^ 32 + w.toNat + 1) ^ e

/-- The scaled root, whose low 32 bits are the word. -/
theorem IsRootFraction.exists_root {e p : Nat} {w : Word} (h : IsRootFraction e p w) :
    ∃ root : Nat, root ^ e ≤ p * 2 ^ (32 * e) ∧ p * 2 ^ (32 * e) < (root + 1) ^ e ∧
      w.toNat = root % 2 ^ 32 := by
  obtain ⟨q, -, hle, hlt⟩ := h
  have hw := w.isLt
  exact ⟨_, hle, hlt, by omega⟩

end Sys2Proof.Machine

/-! SUPPORT. The statements of `spec/40_compression.md` on the mixing functions, the rounds and the tables,
and the worked examples of `spec/95_test_vectors.md`. -/

namespace Sys2Proof.Proofs

open Sys2Proof Sys2Proof.Machine

/-- Settles O13: `rotr_getLsbD`. -/
theorem rotrMovesEveryBit : Obligations.RotrMovesEveryBit :=
  fun x _ _ hn hn32 hi => rotr_getLsbD hn hn32 hi x

/-- Settles O14: each function is an exclusive-or of rotations and shifts, or Ch, or Maj. -/
theorem mixingFunctionsBitByBit : Obligations.MixingFunctionsBitByBit := by
  intro x y z i hi
  have rot {n : Nat} (hn : 0 < n ∧ n < 32) := rotr_getLsbD hn.1 hn.2 hi x
  refine ⟨?sigma0, ?sigma1, ?bigSigma0, ?bigSigma1, Ch_getLsbD hi x y z, Maj_getLsbD x y z i⟩
  case sigma0 =>
    rw [sigma0, BitVec.getLsbD_xor, BitVec.getLsbD_xor, rot (by decide), rot (by decide),
      BitVec.getLsbD_ushiftRight, Nat.add_comm 3 i]
  case sigma1 =>
    rw [sigma1, BitVec.getLsbD_xor, BitVec.getLsbD_xor, rot (by decide), rot (by decide),
      BitVec.getLsbD_ushiftRight, Nat.add_comm 10 i]
  case bigSigma0 =>
    rw [bigSigma0, BitVec.getLsbD_xor, BitVec.getLsbD_xor, rot (by decide), rot (by decide),
      rot (by decide)]
  case bigSigma1 =>
    rw [bigSigma1, BitVec.getLsbD_xor, BitVec.getLsbD_xor, rot (by decide), rot (by decide),
      rot (by decide)]

/-- Settles O15: the sequence is `roundVars`. -/
theorem compressIsSixtyFourRoundsAndFeedForward : Obligations.CompressIsSixtyFourRoundsAndFeedForward := by
  intro S block hlen
  refine ⟨roundVars S block, rfl, fun t ht => ?round, compress_eq_feedForward hlen S⟩
  case round => exact ⟨_, _, rfl, rfl, roundVars_succ hlen ht S⟩

set_option maxRecDepth 100000 in
/-- Settles O47: the tables by comparison, the roots by their two bounds, the integer part searched for. -/
theorem constantTablesAreTheSpecs : Obligations.ConstantTablesAreTheSpecs := by
  refine ⟨rfl, rfl, fun primes hprimes => ⟨fun t ht => ?cubeRoot, fun j hj => ?squareRoot⟩⟩
  case cubeRoot =>
    have hall : ∀ t < 64, IsRootFraction 3 (primes.getD t 0) (K.getD t 0) := by
      subst hprimes; unfold IsRootFraction; decide
    exact (hall t ht).exists_root
  case squareRoot =>
    have hall : ∀ j < 8, IsRootFraction 2 (primes.getD j 0) (IV.toList.getD j 0) := by
      subst hprimes; unfold IsRootFraction; decide
    exact (hall j hj).exists_root

set_option maxRecDepth 100000 in
/-- Settles O48: by computing the two digests and the MAC. -/
theorem workedExamplesComeOutAsPrinted : Obligations.WorkedExamplesComeOutAsPrinted := by
  refine ⟨?_, ?_, ?_⟩
  · decide
  · decide
  · decide

end Sys2Proof.Proofs

/-! SUPPORT. The shape of every command's answer, commands in a row, and programs on the command stream
(`spec/10_state.md` R25, `spec/20_memory.md` R58, R60). -/

namespace Sys2Proof.Machine

/-! ### What a command writes, and what it looks at -/

/-- Writing `HE` and answering, as one update. -/
theorem State.respond_setHE (s : State) (E : HashState) (r : Response) :
    (s.setHE E).respond r = { s with HE := E, resp := s.resp ++ r.bytes } := rfl

/-- Writing `ME` and answering, as one update. -/
theorem State.respond_setME (s : State) (M : MacState) (r : Response) :
    (s.setME M).respond r = { s with ME := M, resp := s.resp ++ r.bytes } := rfl

/-- What a MAC command does to `ME` and what it answers depends on `ME` and the policy alone. -/
theorem exec_of_forMac {i : Instr} (hi : i.forHash = false) (M : MacState) (policy : MacPostFinal) :
    ∃ N r, ∀ s : State, s.ME = M → s.macPostFinal = policy → exec i s = .next ((s.setME N).respond r) := by
  have refusal {e : Err} (h : ∀ s : State, s.ME = M → exec i s = .next (s.raise e)) :
      ∃ N r, ∀ s : State, s.ME = M → s.macPostFinal = policy →
        exec i s = .next ((s.setME N).respond r) :=
    ⟨M, .error e, fun s hs _ => by rw [h s hs, ← hs]; rfl⟩
  cases i with
  | hreset | habsorb data | hfinal => cases hi
  | mreset => exact ⟨_, _, fun s _ _ => exec_mreset s⟩
  | mkey key =>
    by_cases hkey : M.macState = .uninit
    · exact ⟨_, _, fun s hs _ => hs ▸ exec_mkey (s := s) (hs ▸ hkey) key⟩
    · exact refusal fun s hs => exec_mkey_refused (hs ▸ hkey) key
  | mabsorb data =>
    by_cases hkey : M.macState = .uninit
    · exact refusal fun s hs => exec_mabsorb_refused (hs ▸ hkey) data
    · exact ⟨_, _, fun s hs _ => hs ▸ exec_mabsorb (s := s) (hs ▸ hkey) data⟩
  | mfinal =>
    by_cases hkey : M.macState = .uninit
    · exact refusal fun s hs => exec_mfinal_refused (hs ▸ hkey)
    · exact ⟨_, _, fun s hs hpolicy => hs ▸ hpolicy ▸ exec_mfinal (s := s) (hs ▸ hkey)⟩

/-- Every command writes one engine and answers, and looks at no other field than that engine and the policy:
on another command stream it does the same. -/
theorem exec_shape (i : Instr) (s : State) :
    (i.forHash = true ∧ ∃ E r, ∀ c, exec i (s.setCmd c) = .next (((s.setCmd c).setHE E).respond r)) ∨
    (i.forHash = false ∧ ∃ M r, ∀ c, exec i (s.setCmd c) = .next (((s.setCmd c).setME M).respond r)) := by
  cases hi : i.forHash with
  | true =>
    obtain ⟨E, r, h⟩ := exec_of_forHash hi s.HE
    exact .inl ⟨rfl, E, r, fun c => h (s.setCmd c) rfl⟩
  | false =>
    obtain ⟨M, r, h⟩ := exec_of_forMac hi s.ME s.macPostFinal
    exact .inr ⟨rfl, M, r, fun c => h (s.setCmd c) rfl rfl⟩

/-- A command commutes with a change of the command stream, and leaves the moves to come. -/
theorem exec_setCmd (i : Instr) (s : State) :
    ∃ t : State, t.schedule = s.schedule ∧ ∀ c, exec i (s.setCmd c) = .next (t.setCmd c) := by
  obtain ⟨-, E, r, h⟩ | ⟨-, M, r, h⟩ := exec_shape i s
  · exact ⟨(s.setHE E).respond r, rfl, h⟩
  · exact ⟨(s.setME M).respond r, rfl, h⟩

theorem Response.bytes_ne_nil (r : Response) : r.bytes ≠ [] := by
  cases r <;> exact List.cons_ne_nil _ _

/-- Every command answers, and keeps everything but its engine and the response stream. -/
theorem exec_frame (i : Instr) (s : State) : ∃ t, exec i s = .next t ∧
    (i.forHash = true → t.ME = s.ME) ∧ (i.forHash = false → t.HE = s.HE) ∧
    t.cmd = s.cmd ∧ t.schedule = s.schedule ∧ t.macPostFinal = s.macPostFinal ∧
    ∃ r : List Byte, r ≠ [] ∧ t.resp = s.resp ++ r := by
  obtain ⟨hi, E, r, h⟩ | ⟨hi, M, r, h⟩ := exec_shape i s
  · exact ⟨_, h s.cmd, fun _ => rfl, fun hmac => absurd (hi.symm.trans hmac) (by decide), rfl, rfl,
      rfl, r.bytes, r.bytes_ne_nil, rfl⟩
  · exact ⟨_, h s.cmd, fun hhash => absurd (hi.symm.trans hhash) (by decide), fun _ => rfl, rfl, rfl,
      rfl, r.bytes, r.bytes_ne_nil, rfl⟩

/-- Every step answers, and keeps the parameter. -/
theorem step_answers (s : State) : ∃ t, step s = .next t ∧ t.macPostFinal = s.macPostFinal := by
  by_cases hturn : s.EnginesTurn
  · cases hd : decode s.cmd with
    | incomplete => exact ⟨_, step_waits hturn hd, rfl⟩
    | illegal b rest => exact ⟨_, step_illegal hturn hd, rfl⟩
    | frame i rest =>
      obtain ⟨t, hexec, -, -, -, -, hpolicy, -⟩ := exec_frame i (s.pastMove.setCmd rest)
      exact ⟨t, (step_frame hturn hd).trans hexec, hpolicy⟩
  · obtain ⟨m, later, hs⟩ : ∃ m later, s.schedule = m :: later :=
      List.exists_cons_of_ne_nil fun hnil => hturn (State.enginesTurn_of_nil hnil)
    cases m with
    | engine => exact absurd (State.enginesTurn_of_engine hs) hturn
    | deliver bytes => exact ⟨_, (step_move hs).trans (takeMove_deliver bytes _), rfl⟩
    | read n => exact ⟨_, (step_move hs).trans (takeMove_read n _), rfl⟩
    | reset => exact ⟨_, step_reset hs, rfl⟩

/-! ### Commands in a row -/

theorem execAll_cons {i : Instr} {s t : State} (h : exec i s = .next t) (p : List Instr) :
    execAll (i :: p) s = execAll p t := by
  rw [execAll, h]

theorem execAll_singleton (i : Instr) (s : State) : execAll [i] s = exec i s := by
  obtain ⟨t, h, -⟩ := exec_frame i s
  rw [execAll_cons h, h, execAll]

theorem execAll_append {p : List Instr} {s t : State} (h : execAll p s = .next t) (q : List Instr) :
    execAll (p ++ q) s = execAll q t := by
  induction p generalizing s with
  | nil => rw [List.nil_append, Host.Outcome.next.inj h]
  | cons i p ih =>
    obtain ⟨u, hu, -⟩ := exec_frame i s
    rw [execAll_cons hu] at h
    rw [List.cons_append, execAll_cons hu, ih h]

/-- A program on the command stream runs one command a step (`30_encoding.md` R85), and leaves the bytes
after it. -/
theorem run_assemble {p : List Instr} (hp : ∀ i ∈ p, i.WellFormed) (rest : List Byte) {s : State}
    (hs : s.schedule = []) :
    Host.Core.run Sys2Proof.core p.length (s.setCmd (assemble p ++ rest)) =
      execAll p (s.setCmd rest) := by
  induction p generalizing s with
  | nil => rfl
  | cons i p ih =>
    obtain ⟨hi, hp⟩ := List.forall_mem_cons.mp hp
    obtain ⟨t, hsched, hexec⟩ := exec_setCmd i s
    have hd : decode (assemble (i :: p) ++ rest) = .frame i (assemble p ++ rest) := by
      rw [assemble, List.flatMap_cons, List.append_assoc]
      exact decode_encode_append hi _
    have hstep : step (s.setCmd (assemble (i :: p) ++ rest)) = .next (t.setCmd (assemble p ++ rest)) :=
      (step_frame_of_nil (s := s.setCmd (assemble (i :: p) ++ rest)) hs hd).trans (hexec _)
    rw [List.length_cons, run_succ hstep, ih hp (hsched.trans hs), execAll_cons (hexec rest)]

end Sys2Proof.Machine

/-! SUPPORT. The statements on the frame of a command and on what its answer depends on (`spec/10_state.md`
R25, R34, `spec/20_memory.md` R60, `spec/60_exceptions.md` R194). -/

namespace Sys2Proof.Proofs

open Sys2Proof Sys2Proof.Machine

/-- Settles O38: `exec_frame`. -/
theorem commandsKeepToTheirEngine : Obligations.CommandsKeepToTheirEngine := exec_frame

/-- Settles O45: `step_answers`. -/
theorem everyStepAnswersAndKeepsThePolicy : Obligations.EveryStepAnswersAndKeepsThePolicy := step_answers

/-- Settles O39: what a hash command does depends on `HE` alone, which the MAC command leaves, and what a MAC
command does on `ME` and the policy, which the hash command leaves. -/
theorem hashAndMacCommandsCommute : Obligations.HashAndMacCommandsCommute := by
  intro i j s hi hj
  obtain ⟨E, ri, hash⟩ := exec_of_forHash hi s.HE
  obtain ⟨M, rj, mac⟩ := exec_of_forMac hj s.ME s.macPostFinal
  have hij := (execAll_cons (hash s rfl) [j]).trans
    ((execAll_singleton j _).trans (mac ((s.setHE E).respond ri) rfl rfl))
  have hji := (execAll_cons (mac s rfl rfl) [i]).trans
    ((execAll_singleton i _).trans (hash ((s.setME M).respond rj) rfl))
  exact ⟨_, _, _, _, ri.bytes, rj.bytes, hash s rfl, rfl, mac s rfl rfl, rfl, hij, hji, rfl, rfl, rfl, rfl⟩

/-- Settles O41: by the command; the digests are functions of their engine, the other answers are one byte. -/
theorem responsesRevealOnlyDigestsAndMacState : Obligations.ResponsesRevealOnlyDigestsAndMacState := by
  intro i s1 s2 hsame
  cases i with
  | hreset => exact ⟨_, _, _, exec_hreset s1, exec_hreset s2, rfl, rfl⟩
  | habsorb data => exact ⟨_, _, _, exec_habsorb data s1, exec_habsorb data s2, rfl, rfl⟩
  | mreset => exact ⟨_, _, _, exec_mreset s1, exec_mreset s2, rfl, rfl⟩
  | hfinal =>
    exact ⟨_, _, _, exec_hfinal s1, exec_hfinal s2, rfl, by rw [hsame]; rfl⟩
  | mkey key =>
    obtain ⟨t1, h1, hresp1⟩ := exec_mkey_resp key s1
    obtain ⟨t2, h2, hresp2⟩ := exec_mkey_resp key s2
    exact ⟨t1, t2, _, h1, h2, hresp1, hsame ▸ hresp2⟩
  | mabsorb data =>
    obtain ⟨t1, h1, hresp1⟩ := exec_mabsorb_resp data s1
    obtain ⟨t2, h2, hresp2⟩ := exec_mabsorb_resp data s2
    exact ⟨t1, t2, _, h1, h2, hresp1, hsame ▸ hresp2⟩
  | mfinal =>
    have hsame : s1.ME = s2.ME := hsame
    by_cases hkey : s1.ME.macState = .uninit
    · exact ⟨_, _, _, exec_mfinal_refused hkey, exec_mfinal_refused (hsame ▸ hkey), rfl, rfl⟩
    · exact ⟨_, _, _, exec_mfinal hkey, exec_mfinal (hsame ▸ hkey), rfl, by rw [hsame]; rfl⟩

end Sys2Proof.Proofs

/-! SUPPORT. The engines against the functions `SHA256` and `HMAC` (`spec/41_hash_engine.md` R133, R137,
`spec/42_mac_engine.md` R163 to R171). -/

namespace Sys2Proof.Machine

/-! ### A HashEngine computes `SHA256` -/

/-- R133 "Equivalently", with the rest cut off as the last `|msg| mod 64` bytes. -/
theorem absorb_eq_of_append {E : HashState} (hE : E.pending.length ≤ 63) {data msg : List Byte}
    (hmsg : msg = E.pending ++ data) :
    absorb E data =
      { H := compressBlocks (msg.length / 64) E.H msg
        byteCount := E.byteCount + BitVec.ofNat 64 data.length
        pending := msg.drop (msg.length - msg.length % 64) } := by
  have hcut : msg.length - msg.length % 64 = 64 * (msg.length / 64) := by omega
  rw [absorb_eq (by omega), ← hmsg, hcut]

/-- One whole block absorbed from reset. -/
theorem absorb_reset_block {block : List Byte} (hlen : block.length = 64) :
    absorb .reset block = { H := compress IV block, byteCount := 64, pending := [] } := by
  rw [absorb_reset, hlen, compressBlocks_one hlen, List.drop_of_length_le hlen.le]
  rfl

/-- The padding depends on the length modulo 64 only (R134). -/
theorem sha256Message_eq_append_pad (m : List Byte) :
    sha256Message m = m ++ pad (m.length % 64) (BitVec.ofNat 64 (8 * m.length)) := by
  have hzeros : ((55 - (m.length : Int)) % 64).toNat = zeroCount (m.length % 64) := by
    rw [zeroCount]; omega
  rw [sha256Message, hzeros]
  rfl

/-- Finalizing a message absorbed from reset answers its `SHA256` (R135, R137). -/
theorem finalize_absorb_reset (m : List Byte) : (finalize (absorb .reset m)).1 = sha256 m := by
  have hrest : (m.drop (64 * (m.length / 64))).length = m.length % 64 := by
    rw [List.length_drop]; omega
  have hbits : lengthBits (absorb .reset m) = BitVec.ofNat 64 (8 * m.length) := by
    rw [absorb_reset, lengthBits, BitVec.mul_comm, BitVec.ofNat_mul]; rfl
  have hpad : 64 * (m.length / 64) ≤ m.length := by omega
  rw [finalize_eq (absorb_fill HashState.reset_fill m).pending_lt, hbits, absorb_reset, hrest, sha256,
    sha256Message_eq_append_pad]
  generalize pad (m.length % 64) (BitVec.ofNat 64 (8 * m.length)) = P
  have hblocks : (m ++ P).length / 64 =
      m.length / 64 + (m.drop (64 * (m.length / 64)) ++ P).length / 64 := by
    rw [List.length_append, List.length_append, hrest]; omega
  rw [hblocks, compressBlocks_add, compressBlocks_append hpad, List.drop_append_of_le_length hpad]

/-- The reset engine has absorbed the empty message. -/
theorem finalize_reset : (finalize .reset).1 = sha256 [] := by
  rw [← finalize_absorb_reset, absorb_nil]

theorem sha256_length (m : List Byte) : (sha256 m).length = 32 := digest_length _

/-! ### The key -/

theorem effectiveKey_of_le {k : List Byte} (h : k.length ≤ 64) : effectiveKey k = k := if_neg (by omega)

theorem effectiveKey_of_gt {k : List Byte} (h : 64 < k.length) : effectiveKey k = sha256 k := if_pos h

/-- The effective key fits `keyMaterial` (`10_state.md` R30 (a)). -/
theorem effectiveKey_length_le (k : List Byte) : (effectiveKey k).length ≤ 64 := by
  by_cases hlen : k.length ≤ 64
  · rw [effectiveKey_of_le hlen]; exact hlen
  · rw [effectiveKey_of_gt (by omega), sha256_length]; decide

/-- MKEY processes a key on the reset engine into its effective key (`42_mac_engine.md` R163). -/
theorem processKey_reset (key : List Byte) : processKey .reset key = (effectiveKey key, .reset) := by
  by_cases hlen : key.length ≤ 64
  · rw [processKey_short hlen, effectiveKey_of_le hlen]
  · rw [processKey_long (by omega), finalize_absorb_reset, effectiveKey_of_gt (by omega)]

/-- The engine with a key in use has absorbed the one block `innerPad` (`42_mac_engine.md` R164). -/
theorem startMessage_reset (km : List Byte) :
    startMessage .reset km =
      { inner := { H := compress IV (innerPad km), byteCount := 64, pending := [] }
        macState := .keyset
        keyMaterial := km } := by
  rw [startMessage, absorb_reset_block (innerPad_length km)]

/-- A key is read as extended with zeros (`10_state.md` R29). -/
theorem padKey_append_zeros (x : Byte) (km : List Byte) (n : Nat) :
    padKey x (km ++ List.replicate n 0) = padKey x km := by
  have hbyte (i : Nat) : (km ++ List.replicate n 0).getD i 0 = km.getD i 0 := by
    rcases Nat.lt_or_ge i km.length with hi | hi
    · exact List.getD_append _ _ _ _ hi
    · rw [List.getD_append_right _ _ _ _ hi, List.getD_eq_default _ _ hi, List.getD_eq_getElem?_getD,
        List.getElem?_getD_replicate_default_eq]
  simp only [padKey, hbyte]

/-! ### MacEngine computes `HMAC` -/

/-- MKEY from UNINIT, the inner engine reset (`42_mac_engine.md` R164). -/
theorem exec_mkey_reset {s : State} (hkey : s.ME.macState = .uninit) (hinner : s.ME.inner = .reset)
    (key : List Byte) :
    exec (.mkey key) s = .next ((s.setME (startMessage .reset (effectiveKey key))).respond .ok) := by
  rw [exec_mkey hkey, hinner, processKey_reset]

/-- MFINAL's outer pass is a `SHA256` (`42_mac_engine.md` R168). -/
theorem exec_mfinal_eq_sha256 {s : State} (hkey : s.ME.macState ≠ .uninit) :
    exec .mfinal s = .next ((s.setME (afterFinal s.macPostFinal .reset s.ME.keyMaterial)).respond
      (.digest (sha256 (outerPad s.ME.keyMaterial ++ (finalize s.ME.inner).1)))) := by
  rw [exec_mfinal hkey, finalize_absorb_reset]

/-- Under the policy KEYSET the key is in use again (`42_mac_engine.md` R169). -/
theorem afterFinal_keyset (km : List Byte) : afterFinal .keyset .reset km = startMessage .reset km := rfl

/-- What both policies leave, the engine reset before (`42_mac_engine.md` R168, R169). -/
theorem afterFinal_reset (policy : MacPostFinal) (km : List Byte) :
    afterFinal policy .reset km =
      match policy with
      | .uninit =>
        { inner := { H := IV, byteCount := 0, pending := [] }, macState := .uninit, keyMaterial := [] }
      | .keyset =>
        { inner := { H := compress IV (innerPad km), byteCount := 64, pending := [] }
          macState := .keyset
          keyMaterial := km } := by
  cases policy with
  | uninit => rfl
  | keyset => rw [afterFinal_keyset, startMessage_reset]

/-! ### Several commands: absorbing a message in chunks -/

/-- HABSORB of each chunk, each answered 00. -/
theorem execAll_map_habsorb (chunks : List (List Byte)) (s : State) :
    execAll (chunks.map .habsorb) s = .next { s with
      HE := absorb s.HE chunks.flatten
      resp := s.resp ++ List.replicate chunks.length 0x00 } := by
  induction chunks generalizing s with
  | nil => rw [List.length_nil, List.replicate_zero, List.append_nil]; rfl
  | cons c cs ih =>
    rw [List.map_cons, execAll_cons (exec_habsorb c s), ih, List.flatten_cons, absorb_append,
      State.respond_resp, List.append_assoc]
    rfl

/-- MABSORB of each chunk with a key set, each answered 00; which of KEYSET and ABSORBING it ends in depends on
there being a chunk. -/
theorem execAll_map_mabsorb (chunks : List (List Byte)) {s : State} (hkey : s.ME.macState ≠ .uninit) :
    ∃ phase, phase ≠ .uninit ∧ execAll (chunks.map .mabsorb) s = .next { s with
      ME := { s.ME with inner := absorb s.ME.inner chunks.flatten, macState := phase }
      resp := s.resp ++ List.replicate chunks.length 0x00 } := by
  induction chunks generalizing s with
  | nil =>
    refine ⟨s.ME.macState, hkey, ?_⟩
    rw [List.length_nil, List.replicate_zero, List.append_nil]; rfl
  | cons c cs ih =>
    obtain ⟨phase, hphase, hcs⟩ := ih (s := (s.setME
      { s.ME with inner := absorb s.ME.inner c, macState := .absorbing }).respond .ok) nofun
    refine ⟨phase, hphase, ?_⟩
    rw [List.map_cons, execAll_cons (exec_mabsorb hkey c), hcs, List.flatten_cons, absorb_append,
      State.respond_resp, List.append_assoc]
    rfl

/-! ### The two programs -/

/-- The chunks of a message are operands a frame can hold. -/
theorem sha256Program_wellFormed {chunks : List (List Byte)} (h : ∀ c ∈ chunks, c.length < 2 ^ 32) :
    ∀ i ∈ sha256Program chunks, i.WellFormed :=
  List.forall_mem_cons.mpr ⟨by decide, List.forall_mem_append.mpr
    ⟨List.forall_mem_map.mpr h, List.forall_mem_singleton.mpr (by decide)⟩⟩

/-- The key too. -/
theorem hmacProgram_wellFormed {k : List Byte} {chunks : List (List Byte)} (hk : k.length < 2 ^ 32)
    (h : ∀ c ∈ chunks, c.length < 2 ^ 32) : ∀ i ∈ hmacProgram k chunks, i.WellFormed :=
  List.forall_mem_cons.mpr ⟨by decide, List.forall_mem_cons.mpr ⟨hk, List.forall_mem_append.mpr
    ⟨List.forall_mem_map.mpr h, List.forall_mem_singleton.mpr (by decide)⟩⟩⟩

theorem sha256Program_length (chunks : List (List Byte)) :
    (sha256Program chunks).length = chunks.length + 2 := by simp [sha256Program]

theorem hmacProgram_length (k : List Byte) (chunks : List (List Byte)) :
    (hmacProgram k chunks).length = chunks.length + 3 := by simp [hmacProgram]

/-- `SHA256 m` (`30_encoding.md` R86), from any state. -/
theorem execAll_sha256Program (chunks : List (List Byte)) (s : State) :
    execAll (sha256Program chunks) s = .next { s with
      HE := .reset
      resp := s.resp ++ List.replicate (chunks.length + 1) 0x00 ++ 0x00 :: sha256 chunks.flatten } := by
  rw [sha256Program, execAll_cons (exec_hreset s), execAll_append (execAll_map_habsorb chunks _),
    execAll_singleton, exec_hfinal]
  simp only [State.setHE_HE, State.respond_HE, finalize_absorb_reset]
  rw [List.replicate_succ, ← List.singleton_append, ← List.append_assoc]
  rfl

/-- A message in chunks and MFINAL, the key just taken into use (`42_mac_engine.md` R171). -/
theorem execAll_mac_message {s : State} {k : List Byte} (hME : s.ME = startMessage .reset (effectiveKey k))
    (chunks : List (List Byte)) :
    execAll (chunks.map .mabsorb ++ [.mfinal]) s = .next { s with
      ME := afterFinal s.macPostFinal .reset (effectiveKey k)
      resp := s.resp ++ List.replicate chunks.length 0x00 ++ 0x00 :: hmac k chunks.flatten } := by
  obtain ⟨phase, hphase, hchunks⟩ := execAll_map_mabsorb chunks (s := s) (by rw [hME]; exact nofun)
  rw [execAll_append hchunks, execAll_singleton, exec_mfinal_eq_sha256 hphase]
  simp only [hME, startMessage_inner, startMessage_keyMaterial, ← absorb_append, finalize_absorb_reset]
  rfl

/-- A key, a message in chunks, and MFINAL, from UNINIT. The keyed engine gets a name of its own, so that no
check evaluates what it absorbed. -/
theorem execAll_mkey_message {s : State} (hkey : s.ME.macState = .uninit) (hinner : s.ME.inner = .reset)
    (k : List Byte) (chunks : List (List Byte)) :
    execAll (.mkey k :: (chunks.map .mabsorb ++ [.mfinal])) s = .next { s with
      ME := afterFinal s.macPostFinal .reset (effectiveKey k)
      resp := s.resp ++ List.replicate (chunks.length + 1) 0x00 ++ 0x00 :: hmac k chunks.flatten } := by
  obtain ⟨M, hM⟩ : ∃ M, M = startMessage .reset (effectiveKey k) := ⟨_, rfl⟩
  rw [execAll_cons (exec_mkey_reset hkey hinner k), ← hM,
    execAll_mac_message (s := (s.setME M).respond .ok) hM]
  simp [List.replicate_succ]

/-- Without a key a message is refused twice (`60_exceptions.md` R190). -/
theorem execAll_refused_message {s : State} (hkey : s.ME.macState = .uninit) (m : List Byte) :
    execAll [.mabsorb m, .mfinal] s = .next { s with resp := s.resp ++ [0x01, 0x01] } := by
  rw [execAll_cons (exec_mabsorb_refused hkey m), execAll_singleton,
    exec_mfinal_refused (s := s.raise .uninitializedKey) hkey]
  simp [State.raise, State.respond, Err.code]

/-- `HMAC k, m` (`30_encoding.md` R86), from any state. -/
theorem execAll_hmacProgram (k : List Byte) (chunks : List (List Byte)) (s : State) :
    execAll (hmacProgram k chunks) s = .next { s with
      ME := afterFinal s.macPostFinal .reset (effectiveKey k)
      resp := s.resp ++ List.replicate (chunks.length + 2) 0x00 ++ 0x00 :: hmac k chunks.flatten } := by
  rw [hmacProgram, execAll_cons (exec_mreset s), execAll_mkey_message rfl rfl]
  simp [List.replicate_succ]

end Sys2Proof.Machine

/-! SUPPORT. What each kind of step does to the invariants of both engines (`spec/10_state.md` R24, R30). -/

namespace Sys2Proof.Machine

/-! ### The standalone engine -/

/-- Whatever only resets and absorbs keeps holding a message. -/
theorem HashState.HoldsMessage.of_absorbsTo {E F : HashState} (hE : E.HoldsMessage) (h : E.AbsorbsTo F) :
    F.HoldsMessage := by
  obtain ⟨data, rfl | rfl⟩ := h
  · exact hE.absorb data
  · exact HashState.reset_holdsMessage.absorb data

/-! ### MacEngine -/

theorem MacState.reset_inv : MacState.reset.Inv where
  key_le := Nat.zero_le 64
  uninit_reset _ := ⟨rfl, rfl⟩
  keyed_message hkey := absurd rfl hkey
  keyset_start hkey := nomatch hkey
  inner_fill := HashState.reset_fill

/-- A key taken into use on the reset engine (`42_mac_engine.md` R164, R168). -/
theorem startMessage_inv {km : List Byte} (hkm : km.length ≤ 64) : (startMessage .reset km).Inv where
  key_le := hkm
  uninit_reset h := nomatch h
  keyed_message _ := ⟨[], by rw [List.append_nil]; rfl⟩
  keyset_start _ := rfl
  inner_fill := absorb_fill HashState.reset_fill _

/-- More of the message is absorbed after `innerPad` (`42_mac_engine.md` R166). -/
theorem MacState.Inv.absorbing {M : MacState} (hM : M.Inv) (hkey : M.macState ≠ .uninit)
    (data : List Byte) :
    MacState.Inv { M with inner := absorb M.inner data, macState := .absorbing } where
  key_le := hM.key_le
  uninit_reset h := nomatch h
  keyed_message _ := by
    obtain ⟨m, hm⟩ := hM.keyed_message hkey
    exact ⟨m ++ data, by rw [hm, ← absorb_append, List.append_assoc]⟩
  keyset_start h := nomatch h
  inner_fill := absorb_fill hM.inner_fill data

theorem afterFinal_inv (policy : MacPostFinal) {km : List Byte} (hkm : km.length ≤ 64) :
    (afterFinal policy .reset km).Inv := by
  cases policy with
  | uninit => exact MacState.reset_inv
  | keyset => exact startMessage_inv hkm

/-- Every command keeps R30, answered or refused. -/
theorem exec_keeps_me_inv {i : Instr} {s t : State} (hinv : s.ME.Inv) (h : exec i s = .next t) :
    t.ME.Inv := by
  obtain ⟨-, rfl⟩ | ⟨data, -, rfl⟩ | ⟨-, rfl⟩ | ⟨-, rfl⟩ | ⟨key, -, -, rfl⟩ | ⟨key, -, hkey, rfl⟩ |
    ⟨data, -, -, rfl⟩ | ⟨data, -, hkey, rfl⟩ | ⟨-, -, rfl⟩ | ⟨-, -, rfl⟩ := exec_inv h
  · exact hinv
  · exact hinv
  · exact hinv
  · exact MacState.reset_inv
  · exact hinv
  · rw [State.respond_ME, State.setME_ME, (hinv.uninit_reset hkey).1, processKey_reset]
    exact startMessage_inv (effectiveKey_length_le key)
  · exact hinv
  · exact hinv.absorbing hkey data
  · exact hinv
  · exact afterFinal_inv s.macPostFinal hinv.key_le

/-- Every step keeps R30: commands, refusals, illegal headers, waiting, outside moves, RESET. -/
theorem step_keeps_me_inv {s t : State} (hinv : s.ME.Inv) (h : step s = .next t) : t.ME.Inv := by
  obtain ⟨-, -, rfl⟩ | ⟨-, i, rest, -, hexec⟩ | ⟨-, b, rest, -, rfl⟩ | ⟨bytes, -, rfl⟩ | ⟨n, -, rfl⟩ |
    ⟨-, rfl⟩ := step_inv h
  · exact hinv
  · exact exec_keeps_me_inv (s := s.pastMove.setCmd rest) hinv hexec
  · exact hinv
  · exact hinv
  · exact hinv
  · exact MacState.reset_inv

end Sys2Proof.Machine

/-! SUPPORT. The statements of `spec/10_state.md` on the invariants. -/

namespace Sys2Proof.Proofs

open Sys2Proof Sys2Proof.Machine

/-- Settles O44: the reset engine holds the empty message. -/
theorem resetMeetsTheInvariant : Obligations.ResetMeetsTheInvariant where
  he_message := HashState.reset_holdsMessage
  he_fill := HashState.reset_fill
  me_inv := MacState.reset_inv

/-- Settles O43: a step only resets `HE` and absorbs into it, and keeps R30 for MacEngine. -/
theorem everyStepKeepsTheInvariant : Obligations.EveryStepKeepsTheInvariant := by
  intro s t hinv hstep
  obtain ⟨toHE, -⟩ := step_absorbsTo hstep
  exact
    { he_message := hinv.he_message.of_absorbsTo toHE
      he_fill := hinv.he_fill.of_absorbsTo toHE
      me_inv := step_keeps_me_inv hinv.me_inv hstep }

end Sys2Proof.Proofs

/-! SUPPORT. Messages cut into commands, with commands of the other engine in between
(`spec/41_hash_engine.md` R139, `spec/42_mac_engine.md` R166). -/

namespace Sys2Proof

theorem Instr.hashData_of_forMac {i : Instr} (h : i.forHash = false) : i.hashData = [] := by
  cases i with
  | hreset | habsorb data | hfinal => cases h
  | mreset | mkey key | mabsorb data | mfinal => rfl

theorem Instr.macData_of_forHash {i : Instr} (h : i.forHash = true) : i.macData = [] := by
  cases i with
  | hreset | habsorb data | hfinal => rfl
  | mreset | mkey key | mabsorb data | mfinal => cases h

end Sys2Proof

namespace Sys2Proof.Machine

/-- HABSORB commands and MAC commands: `HE` absorbs the operands in order. -/
theorem execAll_habsorbs (p : List Instr) (hp : ∀ i ∈ p, i.forHash = false ∨ ∃ d, i = .habsorb d)
    (s : State) : ∃ t, execAll p s = .next t ∧ t.HE = absorb s.HE (p.flatMap Instr.hashData) := by
  induction p generalizing s with
  | nil => exact ⟨s, rfl, rfl⟩
  | cons i p ih =>
    obtain ⟨hi, hp⟩ := List.forall_mem_cons.mp hp
    obtain ⟨u, hexec, hHE⟩ : ∃ u, exec i s = .next u ∧ u.HE = absorb s.HE i.hashData := by
      obtain hmac | ⟨d, rfl⟩ := hi
      · obtain ⟨u, hexec, -, keep, -⟩ := exec_frame i s
        exact ⟨u, hexec, by rw [keep hmac, Instr.hashData_of_forMac hmac, absorb_nil]⟩
      · exact ⟨_, exec_habsorb d s, rfl⟩
    obtain ⟨t, hrest, ht⟩ := ih hp u
    exact ⟨t, (execAll_cons hexec p).trans hrest, by rw [ht, hHE, List.flatMap_cons, absorb_append]⟩

/-- MABSORB commands and hash commands with a key set, once one MABSORB has run or is among them: the inner
engine absorbs the operands in order, and `macState` is ABSORBING. -/
theorem execAll_mabsorbs (p : List Instr) (hp : ∀ i ∈ p, i.forHash = true ∨ ∃ d, i = .mabsorb d)
    {s : State} (hkey : s.ME.macState ≠ .uninit)
    (hsome : s.ME.macState = .absorbing ∨ ∃ d, .mabsorb d ∈ p) :
    ∃ t, execAll p s = .next t ∧ t.ME =
      { s.ME with inner := absorb s.ME.inner (p.flatMap Instr.macData), macState := .absorbing } := by
  induction p generalizing s with
  | nil =>
    have habs : s.ME.macState = .absorbing := hsome.resolve_right (by simp)
    exact ⟨s, rfl, by rw [List.flatMap_nil, absorb_nil, ← habs]⟩
  | cons i p ih =>
    obtain ⟨hi, htail⟩ := List.forall_mem_cons.mp hp
    obtain hhash | ⟨d, rfl⟩ := hi
    · obtain ⟨u, hexec, keep, -⟩ := exec_frame i s
      have hlater : s.ME.macState = .absorbing ∨ ∃ d, .mabsorb d ∈ p :=
        hsome.imp_right fun ⟨d, hd⟩ => ⟨d, (List.mem_cons.mp hd).resolve_left fun h => by cases h; cases hhash⟩
      rw [← keep hhash] at hkey hlater
      obtain ⟨t, hrest, ht⟩ := ih htail hkey hlater
      exact ⟨t, (execAll_cons hexec p).trans hrest, by
        rw [ht, keep hhash, List.flatMap_cons, Instr.macData_of_forHash hhash, List.nil_append]⟩
    · obtain ⟨t, hrest, ht⟩ := ih htail (s := (s.setME
        { s.ME with inner := absorb s.ME.inner d, macState := .absorbing }).respond .ok) nofun (.inl rfl)
      exact ⟨t, (execAll_cons (exec_mabsorb hkey d) p).trans hrest, by
        rw [ht, List.flatMap_cons, absorb_append]; rfl⟩

end Sys2Proof.Machine

/-! SUPPORT. The statements of `spec/41_hash_engine.md` on whole messages. -/

namespace Sys2Proof.Proofs

open Sys2Proof Sys2Proof.Machine

/-- Settles O19: `exec_habsorb`, and absorbing by whole blocks. -/
theorem habsorbCompressesWholeBlocks : Obligations.HabsorbCompressesWholeBlocks := by
  intro s data msg hpending hmsg
  rw [exec_habsorb, absorb_eq_of_append hpending hmsg, State.respond_setHE, Response.ok_bytes]

/-- Settles O21: both ways `HE` absorbs the same bytes, and HFINAL's answer depends on `HE` alone. -/
theorem hashIsIndependentOfChunking : Obligations.HashIsIndependentOfChunking := by
  intro p s hp
  obtain ⟨t, hrun, hHE⟩ := execAll_habsorbs p hp s
  refine ⟨t, _, _, _, (finalize t.HE).1, hrun, exec_habsorb _ s, hHE, exec_hfinal t, exec_hfinal _, rfl, ?_⟩
  rw [hHE]; rfl

/-- Settles O23: the second HFINAL finalizes the reset engine, which has absorbed the empty message. -/
theorem secondHfinalAnswersTheEmptyDigest : Obligations.SecondHfinalAnswersTheEmptyDigest := by
  intro s
  refine ⟨_, _, exec_hfinal s, exec_hfinal _, ?answer, ?engine⟩
  case answer =>
    rw [State.respond_resp, State.setHE_resp, State.respond_HE, State.setHE_HE, finalize_reset,
      Response.digest_bytes]
  case engine => rw [State.respond_HE, State.setHE_HE, State.respond_HE, State.setHE_HE]

/-- Settles O24: the program's bytes run as its commands, which answer the digest. -/
theorem sha256ProgramAnswersTheDigest : Obligations.Sha256ProgramAnswersTheDigest := by
  intro s chunks rest hs hcmd hchunks _
  have hrun := run_assemble (sha256Program_wellFormed hchunks) rest hs
  rw [← hcmd, execAll_sha256Program, sha256Program_length] at hrun
  exact hrun

end Sys2Proof.Proofs

/-! SUPPORT. The statements of `spec/42_mac_engine.md` on keys and messages. -/

namespace Sys2Proof.Proofs

open Sys2Proof Sys2Proof.Machine

/-- Settles O27: the key is processed on the reset engine, and `innerPad` is one block. -/
theorem mkeyTakesTheKeyIntoUse : Obligations.MkeyTakesTheKeyIntoUse := by
  intro s key hkey hinner _
  rw [exec_mkey_reset hkey hinner, startMessage_reset, State.respond_setME, Response.ok_bytes]

/-- Settles O30: `exec_mabsorb`, and absorbing by whole blocks. -/
theorem mabsorbExtendsTheMessage : Obligations.MabsorbExtendsTheMessage := by
  intro s data msg hkey hpending hmsg
  rw [exec_mabsorb hkey, absorb_eq_of_append hpending hmsg, State.respond_setME, Response.ok_bytes]

/-- Settles O31: the inner digest is HFINAL's on the inner engine, the outer pass a `SHA256`, and the policy
leaves the reset engine or the keyed one. -/
theorem mfinalHashesTheInnerDigest : Obligations.MfinalHashesTheInnerDigest := by
  intro s
  refine ⟨exec_mfinal_refused, fun hkey => ⟨_, _, exec_hfinal _, rfl, rfl, ?_⟩⟩
  have hexec := exec_mfinal_eq_sha256 hkey
  rw [afterFinal_reset, State.respond_setME, Response.digest_bytes] at hexec
  exact hexec

/-- Settles O32: both ways the inner engine absorbs the same bytes, and `macState` becomes ABSORBING. -/
theorem macIsIndependentOfChunking : Obligations.MacIsIndependentOfChunking := by
  intro p s hkey hp hsome
  obtain ⟨t, hrun, hME⟩ := execAll_mabsorbs p hp hkey (.inr hsome)
  exact ⟨t, _, hrun, exec_mabsorb hkey _, hME⟩

/-- Settles O34: the program's bytes run as its commands, which answer the MAC. -/
theorem hmacProgramAnswersTheMac : Obligations.HmacProgramAnswersTheMac := by
  intro s k chunks rest hs hcmd hk hchunks _
  have hrun := run_assemble (hmacProgram_wellFormed hk hchunks) rest hs
  rw [← hcmd, execAll_hmacProgram, hmacProgram_length, afterFinal_reset] at hrun
  exact hrun

/-- Settles O36: zeros after a short key leave its pads, and a digest is its own effective key. -/
theorem hmacKeysThatCannotBeToldApart : Obligations.HmacKeysThatCannotBeToldApart := by
  refine ⟨fun k m n hlen => ?short, fun k m hlen => ?long⟩
  case short =>
    have hextended : (k ++ List.replicate n 0x00).length ≤ 64 := by simpa using hlen
    simp only [hmac, effectiveKey_of_le hextended, effectiveKey_of_le (by omega : k.length ≤ 64), innerPad,
      outerPad, padKey_append_zeros]
  case long =>
    have hdigest : effectiveKey (sha256 k) = sha256 k :=
      effectiveKey_of_le (by rw [sha256_length]; decide)
    rw [hmac, hmac, hdigest, effectiveKey_of_gt hlen]

end Sys2Proof.Proofs

/-! SUPPORT. The next `macState` of the commands that look at it (`spec/42_mac_engine.md` R160), and the number
of CompressionStep invocations (`spec/40_compression.md` R116, `spec/70_reset_and_hazards.md` R238). -/

namespace Sys2Proof.Machine

/-! ### The next `macState` -/

/-- R160, the row of MKEY. -/
theorem exec_mkey_macState (key : List Byte) (s : State) : ∃ t, exec (.mkey key) s = .next t ∧
    t.ME.macState = if s.ME.macState = .uninit then .keyset else s.ME.macState := by
  by_cases hkey : s.ME.macState = .uninit
  · rw [if_pos hkey]; exact ⟨_, exec_mkey hkey key, rfl⟩
  · rw [if_neg hkey]; exact ⟨_, exec_mkey_refused hkey key, rfl⟩

/-- R160, the row of MABSORB. -/
theorem exec_mabsorb_macState (data : List Byte) (s : State) : ∃ t, exec (.mabsorb data) s = .next t ∧
    t.ME.macState = if s.ME.macState = .uninit then .uninit else .absorbing := by
  by_cases hkey : s.ME.macState = .uninit
  · rw [if_pos hkey]; exact ⟨_, exec_mabsorb_refused hkey data, hkey⟩
  · rw [if_neg hkey]; exact ⟨_, exec_mabsorb hkey data, rfl⟩

/-- R160, the row of MFINAL. -/
theorem exec_mfinal_macState (s : State) : ∃ t, exec .mfinal s = .next t ∧
    t.ME.macState = if s.ME.macState = .uninit then .uninit
      else (afterFinal s.macPostFinal .reset s.ME.keyMaterial).macState := by
  by_cases hkey : s.ME.macState = .uninit
  · rw [if_pos hkey]; exact ⟨_, exec_mfinal_refused hkey, hkey⟩
  · rw [if_neg hkey]; exact ⟨_, exec_mfinal hkey, rfl⟩

/-! ### Counting blocks -/

/-- Each 64th byte in the buffer is one invocation. -/
theorem pushCompressions_eq {E : HashState} (h : E.pending.length < 64) (bs : List Byte) :
    pushCompressions E bs = (E.pending.length + bs.length) / 64 := by
  induction bs generalizing E with
  | nil => rw [pushCompressions, List.length_nil]; omega
  | cons b bs ih =>
    rw [pushCompressions, List.length_append, List.length_singleton, List.length_cons]
    by_cases hfull : E.pending.length + 1 = 64
    · have hp : (pushByte E b).pending = [] := by rw [pushByte_pending, if_pos hfull]
      rw [ih (by rw [hp]; decide), hp, if_pos hfull, List.length_nil]; omega
    · have hp : (pushByte E b).pending = E.pending ++ [b] := by rw [pushByte_pending, if_neg hfull]
      have hlen : (pushByte E b).pending.length = E.pending.length + 1 := by rw [hp]; simp
      rw [ih (by omega), hlen, if_neg hfull]; omega

/-- The padding makes one block or two (R134). -/
theorem finalizeCompressions_eq {E : HashState} (h : E.pending.length < 64) :
    finalizeCompressions E = if E.pending.length ≤ 55 then 1 else 2 := by
  rw [finalizeCompressions, pushCompressions_eq h, pad_length]
  split
  · next hle => rw [zeroCount_of_le hle]; omega
  · next hgt => rw [zeroCount_of_ge (by omega) (by omega)]; omega

/-- Bytes pushed into the reset engine. -/
theorem pushCompressions_reset (bs : List Byte) : pushCompressions .reset bs = bs.length / 64 := by
  rw [pushCompressions_eq (by decide), HashState.reset_pending, List.length_nil, Nat.zero_add]

/-- What is pending of a message absorbed from reset. -/
theorem absorb_reset_pending_length (m : List Byte) :
    (absorb .reset m).pending.length = m.length % 64 := by
  rw [absorb_reset, List.length_drop]; omega

/-- Finalizing a message absorbed from reset. -/
theorem finalizeCompressions_absorb_reset (m : List Byte) :
    finalizeCompressions (absorb .reset m) = if m.length % 64 ≤ 55 then 1 else 2 := by
  have hlen := absorb_reset_pending_length m
  rw [finalizeCompressions_eq (by omega), hlen]

/-! ### Counting by command -/

/-- MKEY in UNINIT: the blocks of a long key, and `innerPad`. -/
theorem mkey_compressions {s : State} (hkey : s.ME.macState = .uninit) (hinner : s.ME.inner = .reset)
    (key : List Byte) :
    commandCompressions (.mkey key) s =
      if key.length ≤ 64 then 1 else key.length / 64 + (if key.length % 64 ≤ 55 then 1 else 2) + 1 := by
  have hpad (km : List Byte) : pushCompressions .reset (innerPad km) = 1 := by
    rw [pushCompressions_reset, innerPad_length]
  simp only [commandCompressions, hkey, hinner, processKey_reset, hpad, pushCompressions_reset,
    finalizeCompressions_absorb_reset, ne_eq, not_true_eq_false, if_false]
  by_cases hlen : key.length ≤ 64
  · rw [if_neg (by omega), if_pos hlen]
  · rw [if_pos (by omega), if_neg hlen]

/-- MFINAL with a key set: the inner padding, `outerPad`, the outer padding, and `innerPad` again where the key
stays. -/
theorem mfinal_compressions {s : State} (hkey : s.ME.macState ≠ .uninit)
    (hfill : s.ME.inner.pending.length < 64) :
    commandCompressions .mfinal s = (if s.ME.inner.pending.length ≤ 55 then 1 else 2) +
      (match s.macPostFinal with | .uninit => 2 | .keyset => 3) := by
  have hblock (km : List Byte) : (absorb .reset (outerPad km)).pending.length = 0 := by
    rw [absorb_reset_pending_length, outerPad_length]
  have hdigest (km : List Byte) :
      pushCompressions (absorb .reset (outerPad km)) (finalize s.ME.inner).1 = 0 := by
    rw [pushCompressions_eq (by rw [hblock]; decide), hblock, finalize_fst_length]
  have houter (km : List Byte) :
      finalizeCompressions (absorb (absorb .reset (outerPad km)) (finalize s.ME.inner).1) = 1 := by
    rw [← absorb_append, finalizeCompressions_absorb_reset, List.length_append, outerPad_length,
      finalize_fst_length]
    rfl
  simp only [commandCompressions, if_neg hkey, finalize_snd, pushCompressions_reset, outerPad_length,
    innerPad_length, hdigest, houter, finalizeCompressions_eq hfill]
  cases s.macPostFinal with
  | uninit => rfl
  | keyset => rfl

end Sys2Proof.Machine

/-! SUPPORT. The statements of `spec/42_mac_engine.md` on `macState` and the policy, and the table of
`spec/70_reset_and_hazards.md` R238. -/

namespace Sys2Proof.Proofs

open Sys2Proof Sys2Proof.Machine

/-- Settles O46: the bytes pushed over 64, the state's invariant giving the bytes pending before. -/
theorem compressionCountsAreAsTabulated : Obligations.CompressionCountsAreAsTabulated := by
  intro i s hinv
  have hHE := hinv.he_fill.pending_lt
  have hME := hinv.me_inv.inner_fill.pending_lt
  cases i with
  | hreset | mreset => rfl
  | habsorb data => exact pushCompressions_eq hHE data
  | hfinal => exact finalizeCompressions_eq hHE
  | mabsorb data => simp only [commandCompressions, pushCompressions_eq hME]
  | mkey key =>
    by_cases hkey : s.ME.macState = .uninit
    · simp only [mkey_compressions hkey (hinv.me_inv.uninit_reset hkey).1, if_pos hkey]
    · simp only [commandCompressions, if_pos hkey, if_neg hkey, ne_eq]
  | mfinal =>
    by_cases hkey : s.ME.macState = .uninit
    · simp only [commandCompressions, if_pos hkey]
    · exact (mfinal_compressions hkey hME).trans (if_neg hkey).symm

/-- Settles O35: the key and the first message, then by the policy: refused, or the key in use again and the
second message. -/
theorem secondMessageFollowsThePolicy : Obligations.SecondMessageFollowsThePolicy := by
  intro s k m1 m2 hkey hinner _ _ _
  obtain ⟨M, hM⟩ : ∃ M, M = afterFinal s.macPostFinal .reset (effectiveKey k) := ⟨_, rfl⟩
  have first : execAll [.mkey k, .mabsorb m1, .mfinal] s =
      .next { s with ME := M, resp := s.resp ++ [0x00, 0x00] ++ 0x00 :: hmac k m1 } := by
    have hrun := execAll_mkey_message hkey hinner k [m1]
    rw [List.flatten_singleton, ← hM] at hrun
    exact hrun
  cases hpolicy : s.macPostFinal with
  | uninit =>
    have hkey2 : M.macState = .uninit := by rw [hM, hpolicy, afterFinal_uninit, MacState.reset_macState]
    exact ⟨_, (execAll_append first _).trans (execAll_refused_message hkey2 m2), rfl, rfl⟩
  | keyset =>
    have second := execAll_mac_message (hM.trans (by rw [hpolicy, afterFinal_keyset])) [m2]
      (s := { s with ME := M, resp := s.resp ++ [0x00, 0x00] ++ 0x00 :: hmac k m1 })
    refine ⟨_, (execAll_append first _).trans second, ?_, rfl⟩
    simp

/-- Settles O33: a row for each command, by what the command does to `macState`; an illegal header is raised,
and RESET restores MacEngine. -/
theorem macStateFollowsTheTransitionTable : Obligations.MacStateFollowsTheTransitionTable := by
  refine ⟨fun i s => ?command, fun s h rest hturn hd => ?illegal, fun s later hs => ?reset⟩
  case illegal => exact ⟨_, step_illegal hturn hd, rfl⟩
  case reset => exact ⟨_, step_reset hs, rfl⟩
  case command =>
    cases i with
    | hreset => exact ⟨_, exec_hreset s, rfl⟩
    | habsorb data => exact ⟨_, exec_habsorb data s, rfl⟩
    | hfinal => exact ⟨_, exec_hfinal s, rfl⟩
    | mreset => exact ⟨_, exec_mreset s, rfl⟩
    | mkey key =>
      obtain ⟨t, hexec, hphase⟩ := exec_mkey_macState key s
      refine ⟨t, hexec, hphase.trans ?_⟩
      cases s.ME.macState <;> rfl
    | mabsorb data =>
      obtain ⟨t, hexec, hphase⟩ := exec_mabsorb_macState data s
      refine ⟨t, hexec, hphase.trans ?_⟩
      cases s.ME.macState <;> rfl
    | mfinal =>
      obtain ⟨t, hexec, hphase⟩ := exec_mfinal_macState s
      refine ⟨t, hexec, hphase.trans ?_⟩
      cases s.ME.macState <;> cases s.macPostFinal <;> rfl

end Sys2Proof.Proofs
